-- ==== Sys2Proof/Word.lean ====
section
/-! DEFINITION. The machine's words: the widths the spec names in rules R5, R7, R60 and R61
(00_scope.md, 30_encoding.md). Every value is unsigned (rule R8). -/

namespace Sys2Proof

/-- A register index or a sprite height: a 4-bit field (rules R14, R60). -/
abbrev Nibble := BitVec 4

/-- A byte of memory, a general register, a timer, an immediate kk (rules R5, R61). -/
abbrev Byte := BitVec 8

/-- A 12-bit address field nnn (rule R61). -/
abbrev Addr12 := BitVec 12

/-- An instruction word, the address register I, pc, a return address (rules R5, R60). -/
abbrev Word := BitVec 16

/-- A framebuffer row, column 0 in the most significant bit (rule R32). -/
abbrev Row := BitVec 64

end Sys2Proof
end

