-- ==== Sys2Proof/Machine/Flags.lean ====
section
/-! DEFINITION. Every value an instruction writes to VF as a flag (rule R25), computed from the
operands as they were before the instruction (rule R89), and the modulo-256 results beside them
(rule R90). -/

namespace Sys2Proof.Machine

/-- A flag as the byte VF holds. -/
def flagByte (c : Bool) : Byte := if c then 1 else 0

/-- Carry of `8xy4`: 1 exactly when a + b > 255 (rule R97). -/
def carryFlag (a b : Byte) : Byte := flagByte (decide (a.toNat + b.toNat > 255))

/-- The flag of `8xy5` (a > b) and, with its operands reversed, of `8xy7`: unsigned and strict
(rules R98, R100). -/
def greaterFlag (a b : Byte) : Byte := flagByte (decide (a.toNat > b.toNat))

/-- The flag of `8xy6`: the old bit 0 (rule R99). -/
def lsbFlag (a : Byte) : Byte := flagByte (a.getLsbD 0)

/-- The flag of `8xyE`: the old bit 7 (rule R101). -/
def msbFlag (a : Byte) : Byte := flagByte (a.getLsbD 7)

/-- The flag of `Dxyn` (rules R112, R116). -/
def collisionFlag (c : Bool) : Byte := flagByte c

/-- `(a + b) mod 256` (rule R90). -/
def wrapAdd (a b : Byte) : Byte := .ofNat 8 ((a.toNat + b.toNat) % 256)

/-- `(a - b) mod 256`, computed as `(a + 256 - b) mod 256` (rule R90). -/
def wrapSub (a b : Byte) : Byte := .ofNat 8 ((a.toNat + 256 - b.toNat) % 256)

/-- `s >> 1`, logical (rule R99). -/
def shiftRight1 (a : Byte) : Byte := .ofNat 8 (a.toNat / 2)

/-- `(s << 1) mod 256` (rule R101). -/
def shiftLeft1 (a : Byte) : Byte := .ofNat 8 (a.toNat * 2 % 256)

end Sys2Proof.Machine
end

