-- ==== Sys2Proof/Config.lean ====
section
/-! DEFINITION. The implementation parameters: the fixed ones of rule R5 as named constants, and the
OPEN ones of rule R6 (92_eei_decisions.md D13, D26, D27) as constants without a body, so that
nothing can be proved of their values. -/

namespace Sys2Proof.Config

/-- `MEM_SIZE` (rule R5): bytes in the byte address space. -/
abbrev memSize : Nat := 4096

/-- `PROG_START` (rule R5): load address of the program image and reset value of pc. -/
abbrev progStart : Nat := 0x200

/-- `MAX_IMAGE` (rule R5): the largest program image that loads. -/
abbrev maxImage : Nat := 3584

/-- `FONT_SIZE` (rule R5): 16 glyphs of 5 bytes, from `FONT_BASE` = 0x000. -/
abbrev fontSize : Nat := 80

/-- `GLYPH_BYTES` (rule R5): bytes per glyph, and the stride of `Fx29`. -/
abbrev glyphBytes : Nat := 5

/-- `STACK_DEPTH` (rule R5): return-address slots. -/
abbrev stackDepth : Nat := 16

/-- `FB_ROWS` (rule R5). -/
abbrev fbRows : Nat := 32

/-- `FB_COLS` (rule R5). -/
abbrev fbCols : Nat := 64

/-- The two values rule R6 admits for `SHIFT_SOURCE`. -/
inductive ShiftSource where
  | vx
  | vy
  deriving DecidableEq, Repr, Inhabited

/-- `SHIFT_SOURCE` (rules R6, R99, R101; D13): an OPEN parameter of the spec, so a constant without
a body. The spec's default is the hypothesis `Config.shiftSource = .vx`. Log entry 3. -/
opaque shiftSource : ShiftSource

/-- `FONT` (rules R48, R49; D27): byte `a` of the font image, meant for `a < fontSize`. An OPEN
parameter of the spec, so a constant without a body. Log entry 2. -/
opaque font : Nat → Byte

/-- The spec's default for `SHIFT_SOURCE` (D13), for a claim to assume. No definition uses it. -/
def ShiftSourceIsDefault : Prop := shiftSource = .vx

/-- The conventional glyph rows of rule R49's table, glyphs 0 to 7. PRESUMED: the spec takes them from
general knowledge (log entry 2). -/
def referenceFontLow : List Byte :=
  [0xF0, 0x90, 0x90, 0x90, 0xF0,  0x20, 0x60, 0x20, 0x20, 0x70,
   0xF0, 0x10, 0xF0, 0x80, 0xF0,  0xF0, 0x10, 0xF0, 0x10, 0xF0,
   0x90, 0x90, 0xF0, 0x10, 0x10,  0xF0, 0x80, 0xF0, 0x10, 0xF0,
   0xF0, 0x80, 0xF0, 0x90, 0xF0,  0xF0, 0x10, 0x20, 0x40, 0x40]

/-- The conventional glyph rows of rule R49's table, glyphs 8 to F. PRESUMED, log entry 2. -/
def referenceFontHigh : List Byte :=
  [0xF0, 0x90, 0xF0, 0x90, 0xF0,  0xF0, 0x90, 0xF0, 0x10, 0xF0,
   0xF0, 0x90, 0xF0, 0x90, 0x90,  0xE0, 0x90, 0xE0, 0x90, 0xE0,
   0xF0, 0x80, 0x80, 0x80, 0xF0,  0xE0, 0x90, 0x90, 0x90, 0xE0,
   0xF0, 0x80, 0xF0, 0x80, 0xF0,  0xF0, 0x80, 0xF0, 0x80, 0x80]

/-- The font is the conventional one, for a claim to assume (rule R49). No definition uses it. -/
def FontIsReference : Prop :=
  ∀ a < fontSize, (referenceFontLow ++ referenceFontHigh)[a]? = some (font a)

/-- The random input `rnd` (rules R6, R102; D26): the k-th free byte that `Cxkk` consumes.
A free value, so a constant without a body. Log entry 4. -/
opaque randomByte : Nat → Byte

end Sys2Proof.Config
end

