-- ==== Sys2Proof/Machine/State.lean ====
section
/-! DEFINITION. The machine's state (rule R13), its launch inputs (rules R17, R37), the state after
reset, and the reasons a step can stop. -/

namespace Sys2Proof.Machine

/-- Memory as (address, byte) pairs in canonical form: addresses strictly rising and below 4096, no
entry equal to what an unlisted address reads as (`Memory.background` in Ops.lean). -/
abbrev Memory := List Host.Cell

/-- The run-time fault causes of rule R124. -/
inductive FaultCause where
  | fetchOutOfRange
  | readOutOfRange
  | writeOutOfRange
  | stackOverflow
  | stackUnderflow
  deriving DecidableEq, Repr

/-- The cause's code (rule R124). -/
def FaultCause.code : FaultCause → Nat
  | .fetchOutOfRange => 1
  | .readOutOfRange => 2
  | .writeOutOfRange => 3
  | .stackOverflow => 4
  | .stackUnderflow => 5

/-- The fault record `(cause, pc, word, addr)` of rule R124. `addr` is an exact integer: I + k may
exceed 16 bits (rule R43). -/
structure FaultRecord where
  cause : FaultCause
  /-- The address the faulting instruction was fetched from. -/
  pc : Word
  /-- The instruction word, absent for `FETCH_OUT_OF_RANGE`. -/
  word : Option Word
  addr : Nat
  deriving DecidableEq, Repr

/-- The control state of rule R33. -/
inductive RunState where
  /-- Ready to fetch the next instruction. -/
  | running
  /-- `Fx0A` has executed and the machine waits for a key for register x. -/
  | awaitKey (x : Nibble)
  /-- A run-time fault occurred; only a new load leaves this state. -/
  | faulted (record : FaultRecord)
  deriving DecidableEq, Repr

/-- The state record of rule R13. `depth` is sp + 1 (rule R29, log entry 9) and `draws` is the
model's own counter of random bytes consumed (log entry 4). -/
structure State where
  /-- V0..VF (rules R14, R15). -/
  v : Vector Byte 16
  /-- The address register I (rule R18). -/
  i : Word
  /-- The program counter (rule R20). -/
  pc : Word
  /-- sp + 1: the number of return addresses on the stack, 0..=16 (rule R29). -/
  depth : Fin 17
  /-- The return-address slots (rule R30). -/
  stack : Vector Word 16
  /-- The delay timer DT (rule R26). -/
  dt : Byte
  /-- The sound timer ST (rule R27). -/
  st : Byte
  /-- The byte address space (rule R31). -/
  mem : Memory
  /-- The framebuffer rows (rule R32). -/
  fb : Vector Row 32
  /-- The control state (rule R33). -/
  run : RunState
  /-- How many random bytes `Cxkk` has consumed: the model's own field (log entry 4). -/
  draws : Nat
  deriving DecidableEq, Repr

/-- The stack pointer of rule R29: -1 when the stack is empty. -/
def State.sp (s : State) : Int := (s.depth.val : Int) - 1

/-- The launch inputs of rules R17 and R37: chosen outside the machine, with nothing assumed about
them, and the position in the free random bytes (log entry 4). -/
structure Launch where
  v : Vector Byte 16
  i : Word
  dt : Byte
  st : Byte
  draws : Nat
  deriving DecidableEq, Repr

/-- The state a successful load leaves (rules R37, R144), given the memory it builds. -/
def State.launch (l : Launch) (mem : Memory) : State where
  v := l.v
  i := l.i
  pc := .ofNat 16 Config.progStart
  depth := 0
  stack := .replicate 16 0
  dt := l.dt
  st := l.st
  mem := mem
  fb := .replicate 32 0
  run := .running
  draws := l.draws

/-- Every launch input zero, the choice rule R17 allows a simulator. DESIGN CHOICE, log entry 1. -/
def Launch.zero : Launch where
  v := .replicate 16 0
  i := 0
  dt := 0
  st := 0
  draws := 0

/-- The machine right after reset: the load of the empty image (rules R57, R144), with the launch
inputs of log entry 1. Memory lists nothing: it reads as FONT below 0x050 and 0 elsewhere. -/
def State.reset : State := .launch .zero []

/-- Why `step` answers a fault: the two states in which rule R64 enables no step. A run-time fault of
rule R124 is not one of these: it is a next state whose `run` is `faulted`. -/
inductive Fault where
  /-- Raised by `step` in AwaitKey(x): only a key event goes on (rules R64, R142). Safe: the hardware
  has no step there either. -/
  | awaitingKey (x : Nibble)
  /-- Raised by `step` in Faulted: there is no step, only a new load (rules R64, R126). Safe: the
  hardware has no step there either. -/
  | halted (record : FaultRecord)
  deriving DecidableEq, Repr

/-- Why `exec` answers a refusal. -/
inductive Refusal where
  /-- Raised by an arm of `exec` whose instruction has no meaning yet; no arm does so now. Safe. -/
  | notModelled (mnemonic : String)
  deriving DecidableEq, Repr

/-- What a meaning answers. -/
abbrev Result := Host.Outcome State Fault Refusal

end Sys2Proof.Machine
end

