-- ==== Sys2Proof/Machine/Ops.lean ====
section
/-! DEFINITION. The named operations over memory, registers, the stack and the framebuffer (the
pseudocode primitives of rule R10), the fetch (rule R63) and taking a fault (rule R125). -/

namespace Sys2Proof.Machine

/-! ## Memory (rules R38 to R46, R57) -/

/-- Byte `a` of the font image that load copies in (rules R48, R57), for `a < 80`. -/
def fontByte (a : Nat) : Byte := Config.font a

/-- What an unlisted address reads as: the contents load builds (rule R57), FONT below 0x050 and zero
elsewhere. -/
def Memory.background (a : Nat) : Byte := if a < Config.fontSize then fontByte a else 0

/-- `MemRead(a, 1)` for an address in range. -/
def Memory.read : Memory → Nat → Byte
  | [], a => Memory.background a
  | (c, b) :: m, a => if a = c then b else Memory.read m a

/-- The memory with no entry at `a`: it reads there as an unlisted address. -/
def Memory.forget : Memory → Nat → Memory
  | [], _ => []
  | (c, d) :: m, a => if a = c then Memory.forget m a else (c, d) :: Memory.forget m a

/-- The memory with an entry for `a` before the first entry of a higher address. -/
def Memory.insert : Memory → Nat → Byte → Memory
  | [], a, b => [(a, b)]
  | (c, d) :: m, a, b => if a < c then (a, b) :: (c, d) :: m else (c, d) :: Memory.insert m a b

/-- `MemWrite(a, 1, b)` for an address in range, keeping the canonical form: a byte equal to what an
unlisted address reads as leaves no entry. -/
def Memory.write (m : Memory) (a : Nat) (b : Byte) : Memory :=
  if b = Memory.background a then m.forget a else (m.forget a).insert a b

/-- The canonical form, for addresses from `lo` up. -/
def Memory.wfFrom : Nat → Memory → Bool
  | _, [] => true
  | lo, (a, b) :: m =>
    decide (lo ≤ a) && decide (a < Config.memSize) && decide (b ≠ Memory.background a)
      && Memory.wfFrom (a + 1) m

/-- The canonical form of a memory: strictly rising addresses below 4096, no entry equal to what an
unlisted address reads as. -/
def Memory.wf (m : Memory) : Bool := Memory.wfFrom 0 m

/-- `InRange(a, n)` of rule R10: the n bytes from a lie in memory. -/
def inRange (a n : Nat) : Bool := decide (a + n ≤ Config.memSize)

/-- The bytes at a, a+1, ..., a+n-1, in order. -/
def Memory.readBytes (m : Memory) (a : Nat) : Nat → List Byte
  | 0 => []
  | n + 1 => m.read a :: m.readBytes (a + 1) n

/-- The bytes of the list to a, a+1, ..., in order. -/
def Memory.writeBytes (m : Memory) (a : Nat) : List Byte → Memory
  | [] => m
  | b :: bs => Memory.writeBytes (m.write a b) (a + 1) bs

/-- One byte of memory as the state holds it. -/
def State.readMem (s : State) (a : Nat) : Byte := s.mem.read a

/-- Bytes to consecutive addresses, already checked to be in range. -/
def State.storeBytes (s : State) (a : Nat) (bs : List Byte) : State :=
  { s with mem := s.mem.writeBytes a bs }

/-! ## Registers (rules R10, R14 to R28) -/

/-- VF, the flag register (rule R15). -/
abbrev flagReg : Nibble := 15

/-- `V[x]`. -/
def State.readV (s : State) (x : Nibble) : Byte := s.v[x.toNat]'x.isLt

/-- `V[x] <- b`. -/
def State.writeV (s : State) (x : Nibble) (b : Byte) : State :=
  { s with v := s.v.set x.toNat b x.isLt }

/-- `I <- a`. -/
def State.setI (s : State) (a : Word) : State := { s with i := a }

/-- `DT <- b`. -/
def State.setDT (s : State) (b : Byte) : State := { s with dt := b }

/-- `ST <- b`. -/
def State.setST (s : State) (b : Byte) : State := { s with st := b }

/-- `pc <- target`. -/
def State.setPc (s : State) (a : Word) : State := { s with pc := a }

/-- The fetch's advance of pc past the instruction (rules R20, R63). -/
def State.advance (s : State) : State := s.setPc (s.pc + 2)

/-- A skip of one more instruction when the condition holds (rules R82 to R85). -/
def State.skipIf (s : State) (c : Bool) : State := if c then s.setPc (s.pc + 2) else s

/-- V0..=Vx as bytes, in order (rule R108). -/
def State.regsUpTo (s : State) (x : Nibble) : List Byte := s.v.toList.take (x.toNat + 1)

/-- `V[k] <- MemRead(a + k, 1)` for k in 0..=x (rule R109). -/
def State.loadRegs (s : State) (x : Nibble) (a : Nat) : State :=
  { s with v := .ofFn fun k => if k.val ≤ x.toNat then s.mem.read (a + k.val) else s.v[k] }

/-! ## The random input (rule R102) -/

/-- `rnd`, the free byte of the current draw. -/
def State.rnd (s : State) : Byte := Config.randomByte s.draws

/-- The current draw is used up (log entry 4). -/
def State.nextDraw (s : State) : State := { s with draws := s.draws + 1 }

/-! ## The return-address stack (rules R29, R30) -/

/-- `sp <- sp + 1; stack[sp] <- a` (rule R81), or `none` when the 16 slots are full (sp = 15). -/
def State.push (s : State) (a : Word) : Option State :=
  if h : s.depth.val < 16 then
    some { s with depth := ⟨s.depth.val + 1, by omega⟩, stack := s.stack.set s.depth.val a h }
  else none

/-- `stack[sp]` and the state after `sp <- sp - 1` (rule R79), or `none` when the stack is empty
(sp = -1). -/
def State.pop (s : State) : Option (Word × State) :=
  if h : 0 < s.depth.val then
    have hlt := s.depth.isLt
    some (s.stack[s.depth.val - 1], { s with depth := ⟨s.depth.val - 1, by omega⟩ })
  else none

/-! ## The framebuffer (rules R32, R110 to R114) -/

/-- Pixel (column c, row r): bit 63 - c of row r (rule R32). -/
def pixel (fb : Vector Row 32) (c : Fin 64) (r : Fin 32) : Bool := fb[r].getLsbD (63 - c.val)

/-- `Clear()` (rule R110). -/
def State.clearFb (s : State) : State := { s with fb := .replicate 32 0 }

/-- A sprite byte at the most significant end of a row, rotated right by x mod 64 (rule R111). -/
def spriteRow (b : Byte) (x : Byte) : Row := (b.setWidth 64 <<< 56).rotateRight (x.toNat % 64)

/-- The framebuffer row that sprite row k goes to (rule R113). -/
def spriteTarget (y : Byte) (k : Nat) : Fin 32 := ⟨(y.toNat + k) % 32, Nat.mod_lt _ (by decide)⟩

/-- `DrawSprite` of rule R111 from sprite row k on: the framebuffer after the draw and the collision
bit, true when a row had a lit pixel under a sprite pixel before the XOR (rule R112). -/
def drawSprite (x y : Byte) : Nat → List Byte → Vector Row 32 → Vector Row 32 × Bool
  | _, [], fb => (fb, false)
  | k, b :: bs, fb =>
    let r := spriteTarget y k
    let row := fb[r]
    let out := drawSprite x y (k + 1) bs (fb.set r.val (row ^^^ spriteRow b x) r.isLt)
    (out.1, decide (row &&& spriteRow b x ≠ 0) || out.2)

/-! ## Faults (rules R124, R125) and the control state (rule R33) -/

/-- Taking a fault (rule R125): the one operation every fault goes through. The state is the one
before the fetch, so pc is still the address of the faulting instruction; only `run` changes. -/
def State.takeFault (s : State) (cause : FaultCause) (word : Option Word) (addr : Nat) : State :=
  { s with run := .faulted ⟨cause, s.pc, word, addr⟩ }

/-- The lowest accessed address that is 4096 or more, for an access that starts at a and is not in
range (rule R124). -/
def firstOutOfRange (a : Nat) : Nat := max a Config.memSize

/-- `await_key(x)` (rules R10, R122). -/
def State.awaitKey (s : State) (x : Nibble) : State := { s with run := .awaitKey x }

/-- The end of a wait: Running again (rule R123). -/
def State.resume (s : State) : State := { s with run := .running }

/-- Does the machine take no more steps because of a fault? -/
def State.isFaulted (s : State) : Bool :=
  match s.run with
  | .faulted _ => true
  | _ => false

/-! ## The fetch (rules R41, R63, R65) -/

/-- The bytes at pc and pc + 1, or `none` when they do not both lie in memory (rule R65). -/
def State.fetchBytes (s : State) : Option (Byte × Byte) :=
  if inRange s.pc.toNat 2 then some (s.readMem s.pc.toNat, s.readMem (s.pc.toNat + 1)) else none

/-- The fetch's own fault (rules R65, R124): no word, and addr is pc. -/
def State.fetchFault (s : State) : State := s.takeFault .fetchOutOfRange none s.pc.toNat

/-- An unrecognized word is a no-op: only pc advances (rules R73, R128). -/
def State.skipUnrecognized (s : State) : State := s.advance

end Sys2Proof.Machine
end

