-- ==== Sys2Proof/Machine/Operands.lean ====
section
/-! DEFINITION. The operand forms: immediates and targets (rule R61), the shift source (rules R62,
R99), glyph addresses (rule R106), decimal digits (rule R107), and the base-plus-index addresses
through I (42_index_memory.md). -/

namespace Sys2Proof.Machine

/-- `zext_16(nnn)` (rule R61): a target or a base address. -/
def target (nnn : Addr12) : Word := nnn.setWidth 16

/-- `zext_16(b)` (rules R86, R105). -/
def zext16 (b : Byte) : Word := b.setWidth 16

/-- `Bnnn`'s target (rule R86): nnn + V0, at most 0x10FE, so exact in 16 bits. -/
def offsetTarget (nnn : Addr12) (v0 : Byte) : Word := target nnn + zext16 v0

/-- The value a shift reads under a given `SHIFT_SOURCE` (rules R99, R101). -/
def State.shiftOperandOf (s : State) (src : Config.ShiftSource) (x y : Nibble) : Byte :=
  match src with
  | .vx => s.readV x
  | .vy => s.readV y

/-- The value a shift reads: `SHIFT_SOURCE` is the configuration's (rule R6, log entry 3). -/
def State.shiftOperand (s : State) (x y : Nibble) : Byte := s.shiftOperandOf Config.shiftSource x y

/-- The address of a glyph: Vx × 5, not masked, at most 1275 (rule R106). -/
def glyphAddress (b : Byte) : Word := .ofNat 16 (b.toNat * Config.glyphBytes)

/-- The hundreds, tens and units digits (rule R107). -/
def bcdDigits (b : Byte) : List Byte :=
  [.ofNat 8 (b.toNat / 100), .ofNat 8 (b.toNat / 10 % 10), .ofNat 8 (b.toNat % 10)]

/-- The address an access through I starts at: I itself, an exact integer (rule R43). -/
def State.base (s : State) : Nat := s.i.toNat

/-- The number of bytes of a register block V0..=Vx (rules R108, R109). -/
def blockLength (x : Nibble) : Nat := x.toNat + 1

/-- The random byte under the mask kk (rule R103). -/
def maskRandom (rnd kk : Byte) : Byte := rnd &&& kk

end Sys2Proof.Machine
end

