-- ==== Sys2Proof/Machine/Alu.lean ====
section
/-! DEFINITION. The meanings of the arithmetic and logic instructions (41_alu.md). Operands are read
from the state before the instruction; the result is written first and the flag last (rule R89). -/

namespace Sys2Proof.Machine

/-- pc past the instruction and `V[x] <- b`: the shape of every flagless ALU instruction. -/
def State.putV (s : State) (x : Nibble) (b : Byte) : State := s.advance.writeV x b

/-- `V[x] <- b`, then `V[15] <- f` (rule R89): when x = F the flag stays. -/
def State.putVF (s : State) (x : Nibble) (b f : Byte) : State := (s.putV x b).writeV flagReg f

/-- `6xkk` LD (rule R91). -/
def execLdImm (x : Nibble) (kk : Byte) (s : State) : Result := .next (s.putV x kk)

/-- `7xkk` ADD (rule R92): no flag, even on carry out. -/
def execAddImm (x : Nibble) (kk : Byte) (s : State) : Result := .next (s.putV x (wrapAdd (s.readV x) kk))

/-- `8xy0` LD (rule R93). -/
def execLdReg (x y : Nibble) (s : State) : Result := .next (s.putV x (s.readV y))

/-- `8xy1` OR (rule R94). -/
def execOrReg (x y : Nibble) (s : State) : Result := .next (s.putV x (s.readV x ||| s.readV y))

/-- `8xy2` AND (rule R95). -/
def execAndReg (x y : Nibble) (s : State) : Result := .next (s.putV x (s.readV x &&& s.readV y))

/-- `8xy3` XOR (rule R96). -/
def execXorReg (x y : Nibble) (s : State) : Result := .next (s.putV x (s.readV x ^^^ s.readV y))

/-- `8xy4` ADD (rule R97). -/
def execAddReg (x y : Nibble) (s : State) : Result :=
  .next (s.putVF x (wrapAdd (s.readV x) (s.readV y)) (carryFlag (s.readV x) (s.readV y)))

/-- `8xy5` SUB (rule R98). -/
def execSub (x y : Nibble) (s : State) : Result :=
  .next (s.putVF x (wrapSub (s.readV x) (s.readV y)) (greaterFlag (s.readV x) (s.readV y)))

/-- The shift right of rule R99 applied to a given source value. -/
def State.putShr (s : State) (x : Nibble) (a : Byte) : State := s.putVF x (shiftRight1 a) (lsbFlag a)

/-- `8xy6` SHR (rule R99). -/
def execShr (x y : Nibble) (s : State) : Result := .next (s.putShr x (s.shiftOperand x y))

/-- `8xy7` SUBN (rule R100). -/
def execSubn (x y : Nibble) (s : State) : Result :=
  .next (s.putVF x (wrapSub (s.readV y) (s.readV x)) (greaterFlag (s.readV y) (s.readV x)))

/-- The shift left of rule R101 applied to a given source value. -/
def State.putShl (s : State) (x : Nibble) (a : Byte) : State := s.putVF x (shiftLeft1 a) (msbFlag a)

/-- `8xyE` SHL (rule R101). -/
def execShl (x y : Nibble) (s : State) : Result := .next (s.putShl x (s.shiftOperand x y))

/-- `Cxkk` RND (rule R103): the draw is the step's free byte (rule R102). -/
def execRnd (x : Nibble) (kk : Byte) (s : State) : Result :=
  .next (s.nextDraw.putV x (maskRandom s.rnd kk))

end Sys2Proof.Machine
end

