-- ==== Sys2Proof/Syntax.lean ====
section
/-! DEFINITION. The 32 instructions of spec/opcode_table.json (rules R4, R67), one constructor per
row, with every operand field at the width rule R60 gives it. -/

namespace Sys2Proof

/-- The instruction set (rule R67). `x` and `y` name registers, `kk` is an 8-bit immediate, `nnn` a
12-bit address, `n` a sprite height (rule R61). `shr` and `shl` keep the `y` field, which matters
only under `SHIFT_SOURCE` = `VY` (rule R62). -/
inductive Instr where
  /-- `00E0` CLS, rule R115. -/
  | cls
  /-- `00EE` RET, rule R79. -/
  | ret
  /-- `1nnn` JP nnn, rule R80. -/
  | jp (nnn : Addr12)
  /-- `2nnn` CALL nnn, rule R81. -/
  | call (nnn : Addr12)
  /-- `3xkk` SE Vx, kk, rule R82. -/
  | seImm (x : Nibble) (kk : Byte)
  /-- `4xkk` SNE Vx, kk, rule R83. -/
  | sneImm (x : Nibble) (kk : Byte)
  /-- `5xy0` SE Vx, Vy, rule R84. -/
  | seReg (x y : Nibble)
  /-- `6xkk` LD Vx, kk, rule R91. -/
  | ldImm (x : Nibble) (kk : Byte)
  /-- `7xkk` ADD Vx, kk, rule R92. -/
  | addImm (x : Nibble) (kk : Byte)
  /-- `8xy0` LD Vx, Vy, rule R93. -/
  | ldReg (x y : Nibble)
  /-- `8xy1` OR Vx, Vy, rule R94. -/
  | orReg (x y : Nibble)
  /-- `8xy2` AND Vx, Vy, rule R95. -/
  | andReg (x y : Nibble)
  /-- `8xy3` XOR Vx, Vy, rule R96. -/
  | xorReg (x y : Nibble)
  /-- `8xy4` ADD Vx, Vy, rule R97. -/
  | addReg (x y : Nibble)
  /-- `8xy5` SUB Vx, Vy, rule R98. -/
  | sub (x y : Nibble)
  /-- `8xy6` SHR Vx, Vy, rule R99. -/
  | shr (x y : Nibble)
  /-- `8xy7` SUBN Vx, Vy, rule R100. -/
  | subn (x y : Nibble)
  /-- `8xyE` SHL Vx, Vy, rule R101. -/
  | shl (x y : Nibble)
  /-- `9xy0` SNE Vx, Vy, rule R85. -/
  | sneReg (x y : Nibble)
  /-- `Annn` LD I, nnn, rule R104. -/
  | ldI (nnn : Addr12)
  /-- `Bnnn` JP V0, nnn, rule R86. -/
  | jpV0 (nnn : Addr12)
  /-- `Cxkk` RND Vx, kk, rule R103. -/
  | rnd (x : Nibble) (kk : Byte)
  /-- `Dxyn` DRW Vx, Vy, n, rule R116. -/
  | drw (x y n : Nibble)
  /-- `Fx07` LD Vx, DT, rule R119. -/
  | ldVxDt (x : Nibble)
  /-- `Fx0A` LD Vx, K, rule R122. -/
  | ldVxK (x : Nibble)
  /-- `Fx15` LD DT, Vx, rule R120. -/
  | ldDtVx (x : Nibble)
  /-- `Fx18` LD ST, Vx, rule R121. -/
  | ldStVx (x : Nibble)
  /-- `Fx1E` ADD I, Vx, rule R105. -/
  | addI (x : Nibble)
  /-- `Fx29` LD F, Vx, rule R106. -/
  | ldF (x : Nibble)
  /-- `Fx33` LD B, Vx, rule R107. -/
  | ldB (x : Nibble)
  /-- `Fx55` LD [I], Vx, rule R108. -/
  | ldMemVx (x : Nibble)
  /-- `Fx65` LD Vx, [I], rule R109. -/
  | ldVxMem (x : Nibble)
  deriving DecidableEq, Repr

end Sys2Proof
end

