-- ==== Sys2Proof/Assembly.lean ====
section
/-! DEFINITION. The assembler notation of rule R76 (30_encoding.md) as structured lines: a mnemonic
and its operands, numbers not yet checked against the field widths (WellFormed.lean checks them). -/

namespace Sys2Proof

/-- The mnemonics of rule R76, and `DW` for an unrecognized word. -/
inductive Mnem where
  | cls | ret | jp | call | se | sne | ld | add | or' | and' | xor' | sub | shr | subn | shl
  | rnd | drw | dw
  deriving DecidableEq, Repr

/-- The operands of rule R76. -/
inductive Operand where
  /-- `V0` .. `VF`. -/
  | reg (r : Nat)
  /-- A number: nnn, kk, n or a whole word. -/
  | num (k : Nat)
  /-- `I`. -/
  | addrReg
  /-- `DT`. -/
  | dt
  /-- `ST`. -/
  | st
  /-- `K`. -/
  | key
  /-- `F`. -/
  | font
  /-- `B`. -/
  | bcd
  /-- `[I]`. -/
  | memI
  deriving DecidableEq, Repr

/-- One line of a listing. -/
structure Line where
  mnem : Mnem
  ops : List Operand
  deriving DecidableEq, Repr

/-- `Vx` as an operand. -/
def regOp (x : Nibble) : Operand := .reg x.toNat

/-- The operands of `SHR` and `SHL`: `Vy` is spelled out whenever y ≠ 0 (rule R77). -/
def shiftOps (x y : Nibble) : List Operand :=
  if y = 0 then [regOp x] else [regOp x, regOp y]

/-- The line that spells an instruction (rule R76's table, row by row). -/
def Instr.line : Instr → Line
  | .cls => ⟨.cls, []⟩
  | .ret => ⟨.ret, []⟩
  | .jp nnn => ⟨.jp, [.num nnn.toNat]⟩
  | .call nnn => ⟨.call, [.num nnn.toNat]⟩
  | .seImm x kk => ⟨.se, [regOp x, .num kk.toNat]⟩
  | .sneImm x kk => ⟨.sne, [regOp x, .num kk.toNat]⟩
  | .seReg x y => ⟨.se, [regOp x, regOp y]⟩
  | .ldImm x kk => ⟨.ld, [regOp x, .num kk.toNat]⟩
  | .addImm x kk => ⟨.add, [regOp x, .num kk.toNat]⟩
  | .ldReg x y => ⟨.ld, [regOp x, regOp y]⟩
  | .orReg x y => ⟨.or', [regOp x, regOp y]⟩
  | .andReg x y => ⟨.and', [regOp x, regOp y]⟩
  | .xorReg x y => ⟨.xor', [regOp x, regOp y]⟩
  | .addReg x y => ⟨.add, [regOp x, regOp y]⟩
  | .sub x y => ⟨.sub, [regOp x, regOp y]⟩
  | .shr x y => ⟨.shr, shiftOps x y⟩
  | .subn x y => ⟨.subn, [regOp x, regOp y]⟩
  | .shl x y => ⟨.shl, shiftOps x y⟩
  | .sneReg x y => ⟨.sne, [regOp x, regOp y]⟩
  | .ldI nnn => ⟨.ld, [.addrReg, .num nnn.toNat]⟩
  | .jpV0 nnn => ⟨.jp, [.reg 0, .num nnn.toNat]⟩
  | .rnd x kk => ⟨.rnd, [regOp x, .num kk.toNat]⟩
  | .drw x y n => ⟨.drw, [regOp x, regOp y, .num n.toNat]⟩
  | .ldVxDt x => ⟨.ld, [regOp x, .dt]⟩
  | .ldVxK x => ⟨.ld, [regOp x, .key]⟩
  | .ldDtVx x => ⟨.ld, [.dt, regOp x]⟩
  | .ldStVx x => ⟨.ld, [.st, regOp x]⟩
  | .addI x => ⟨.add, [.addrReg, regOp x]⟩
  | .ldF x => ⟨.ld, [.font, regOp x]⟩
  | .ldB x => ⟨.ld, [.bcd, regOp x]⟩
  | .ldMemVx x => ⟨.ld, [.memI, regOp x]⟩
  | .ldVxMem x => ⟨.ld, [regOp x, .memI]⟩

/-- The mnemonic as rule R76 prints it. -/
def Mnem.text : Mnem → String
  | .cls => "CLS" | .ret => "RET" | .jp => "JP" | .call => "CALL" | .se => "SE" | .sne => "SNE"
  | .ld => "LD" | .add => "ADD" | .or' => "OR" | .and' => "AND" | .xor' => "XOR" | .sub => "SUB"
  | .shr => "SHR" | .subn => "SUBN" | .shl => "SHL" | .rnd => "RND" | .drw => "DRW" | .dw => "DW"

/-- One hexadecimal digit. -/
def hexDigit : Nat → String
  | 0 => "0" | 1 => "1" | 2 => "2" | 3 => "3" | 4 => "4" | 5 => "5" | 6 => "6" | 7 => "7"
  | 8 => "8" | 9 => "9" | 10 => "A" | 11 => "B" | 12 => "C" | 13 => "D" | 14 => "E" | _ => "F"

/-- The last `d` hexadecimal digits of a number. -/
def hexDigits : Nat → Nat → String
  | 0, _ => ""
  | d + 1, k => hexDigits d (k / 16) ++ hexDigit (k % 16)

/-- A number below 65536 with a `0x` prefix, with at least `d` digits. -/
def hexText (d k : Nat) : String :=
  let need := if k < 16 then 1 else if k < 256 then 2 else if k < 4096 then 3 else 4
  "0x" ++ hexDigits (max d need) k

/-- The digits a listing gives a number after this mnemonic, at least (as in 95_test_vectors.md). -/
def Mnem.digits : Mnem → Nat
  | .jp | .call => 3
  | .dw => 4
  | .drw => 1
  | _ => 2

/-- The operand as rule R76 prints it: hexadecimal numbers with a `0x` prefix. -/
def Operand.text (d : Nat) : Operand → String
  | .reg r => "V" ++ hexDigit r
  | .num k => hexText d k
  | .addrReg => "I" | .dt => "DT" | .st => "ST" | .key => "K" | .font => "F" | .bcd => "B"
  | .memI => "[I]"

/-- The printed line: the mnemonic, a space, the operands separated by commas (rule R76). -/
def Line.text (l : Line) : String :=
  match l.ops with
  | [] => l.mnem.text
  | o :: os => os.foldl (fun t p => t ++ ", " ++ p.text l.mnem.digits) (l.mnem.text ++ " " ++ o.text l.mnem.digits)

end Sys2Proof
end

