-- ==== Sys2Proof/WellFormed.lean ====
section
/-! DEFINITION. Well-formedness. An `Instr` carries its field widths in its types, so the checks that
can fail are those on a line of rule R76's notation, whose numbers are unbounded: the operand
shape, a register below 16, and each number within its field (rules R60, R61, R76). -/

namespace Sys2Proof

/-- The line is a row of rule R76's table with every operand inside its field's range. The check
that the word of a `DW` line is an unrecognized one is `Line.assemble`'s, since it needs the
decoder. -/
def Line.wellFormed : Line → Bool
  | ⟨.cls, []⟩ | ⟨.ret, []⟩ => true
  | ⟨.jp, [.num nnn]⟩ | ⟨.call, [.num nnn]⟩ | ⟨.ld, [.addrReg, .num nnn]⟩ => decide (nnn < 4096)
  | ⟨.jp, [.reg r, .num nnn]⟩ => decide (r = 0) && decide (nnn < 4096)
  | ⟨.se, [.reg x, .num kk]⟩ | ⟨.sne, [.reg x, .num kk]⟩ | ⟨.ld, [.reg x, .num kk]⟩
  | ⟨.add, [.reg x, .num kk]⟩ | ⟨.rnd, [.reg x, .num kk]⟩ => decide (x < 16) && decide (kk < 256)
  | ⟨.se, [.reg x, .reg y]⟩ | ⟨.sne, [.reg x, .reg y]⟩ | ⟨.ld, [.reg x, .reg y]⟩
  | ⟨.or', [.reg x, .reg y]⟩ | ⟨.and', [.reg x, .reg y]⟩ | ⟨.xor', [.reg x, .reg y]⟩
  | ⟨.add, [.reg x, .reg y]⟩ | ⟨.sub, [.reg x, .reg y]⟩ | ⟨.subn, [.reg x, .reg y]⟩
  | ⟨.shr, [.reg x, .reg y]⟩ | ⟨.shl, [.reg x, .reg y]⟩ => decide (x < 16) && decide (y < 16)
  | ⟨.drw, [.reg x, .reg y, .num n]⟩ => decide (x < 16) && decide (y < 16) && decide (n < 16)
  | ⟨.shr, [.reg x]⟩ | ⟨.shl, [.reg x]⟩
  | ⟨.ld, [.reg x, .dt]⟩ | ⟨.ld, [.reg x, .key]⟩ | ⟨.ld, [.dt, .reg x]⟩ | ⟨.ld, [.st, .reg x]⟩
  | ⟨.add, [.addrReg, .reg x]⟩ | ⟨.ld, [.font, .reg x]⟩ | ⟨.ld, [.bcd, .reg x]⟩
  | ⟨.ld, [.memI, .reg x]⟩ | ⟨.ld, [.reg x, .memI]⟩ => decide (x < 16)
  | ⟨.dw, [.num w]⟩ => decide (w < 65536)
  | _ => false

/-- An instruction is well-formed when the line that spells it is; `Laws/PerInstr.lean` shows that
every `Instr` is, because its fields have the widths of rule R60 in their types. -/
def Instr.wellFormed (i : Instr) : Bool := i.line.wellFormed

end Sys2Proof
end

