-- ==== Sys2Proof/Decode.lean ====
section
/-! DEFINITION. The decoder of rule R66, total on 16-bit words and rejecting by name, the encoder
written from the formats of rule R60, the byte order of rule R41, the opcode table, and the
assembler of rules R76 and R77. -/

namespace Sys2Proof

/-! ## Fields (rules R7, R60) -/

/-- `w[15:12]`, the family nibble. -/
def fieldFamily (w : Word) : Nibble := w.extractLsb' 12 4
/-- `w[11:8]`, x. -/
def fieldX (w : Word) : Nibble := w.extractLsb' 8 4
/-- `w[7:4]`, y. -/
def fieldY (w : Word) : Nibble := w.extractLsb' 4 4
/-- `w[3:0]`, n. -/
def fieldN (w : Word) : Nibble := w.extractLsb' 0 4
/-- `w[7:0]`, kk. -/
def fieldKK (w : Word) : Byte := w.extractLsb' 0 8
/-- `w[11:0]`, nnn. -/
def fieldNNN (w : Word) : Addr12 := w.extractLsb' 0 12

/-! ## Byte order (rule R41) -/

/-- The word of two consecutive bytes: big-endian, the byte at the lower address in bits 15:8. -/
def wordOfBytes (hi lo : Byte) : Word := hi ++ lo
/-- The byte stored at the lower address. -/
def highByte (w : Word) : Byte := w.extractLsb' 8 8
/-- The byte stored at the higher address. -/
def lowByte (w : Word) : Byte := w.extractLsb' 0 8

/-! ## The decoder (rule R66) -/

/-- Why a word is unrecognized (rule R73). Each constructor names the rule that says so. None of
them stops the machine: the step reports the word and skips it. -/
inductive Unrecognized where
  /-- Family 0x0, other than `00E0` and `00EE` (rule R68). -/
  | familyZero
  /-- `5xyn` or `9xyn` with n ≠ 0 (rule R71). -/
  | skipSelector
  /-- `8xyn` with n outside 0..7 and E (rule R69). -/
  | aluSelector
  /-- Family 0xE (rule R72). -/
  | familyE
  /-- `Fxkk` with kk outside the nine selectors (rule R70). -/
  | familyFSelector
  deriving DecidableEq, Repr

/-- Family 0x0: exactly `00E0` and `00EE`, each matched on all 16 bits (rule R68). -/
def decodeZero (w : Word) : Except Unrecognized Instr :=
  if w = 0x00E0#16 then .ok .cls
  else if w = 0x00EE#16 then .ok .ret
  else .error .familyZero

/-- Family 0x8: the low nibble selects the operation (rule R69). -/
def decodeAlu (x y n : Nibble) : Except Unrecognized Instr :=
  match n.toNat with
  | 0x0 => .ok (.ldReg x y)
  | 0x1 => .ok (.orReg x y)
  | 0x2 => .ok (.andReg x y)
  | 0x3 => .ok (.xorReg x y)
  | 0x4 => .ok (.addReg x y)
  | 0x5 => .ok (.sub x y)
  | 0x6 => .ok (.shr x y)
  | 0x7 => .ok (.subn x y)
  | 0xE => .ok (.shl x y)
  | _ => .error .aluSelector

/-- Family 0xF: the low byte selects the operation (rule R70). -/
def decodeMisc (x : Nibble) (kk : Byte) : Except Unrecognized Instr :=
  match kk.toNat with
  | 0x07 => .ok (.ldVxDt x)
  | 0x0A => .ok (.ldVxK x)
  | 0x15 => .ok (.ldDtVx x)
  | 0x18 => .ok (.ldStVx x)
  | 0x1E => .ok (.addI x)
  | 0x29 => .ok (.ldF x)
  | 0x33 => .ok (.ldB x)
  | 0x55 => .ok (.ldMemVx x)
  | 0x65 => .ok (.ldVxMem x)
  | _ => .error .familyFSelector

/-- `Decode(w)` of rule R66: it reads the word and nothing else (rule R78). -/
def decode (w : Word) : Except Unrecognized Instr :=
  match (fieldFamily w).toNat with
  | 0x0 => decodeZero w
  | 0x1 => .ok (.jp (fieldNNN w))
  | 0x2 => .ok (.call (fieldNNN w))
  | 0x3 => .ok (.seImm (fieldX w) (fieldKK w))
  | 0x4 => .ok (.sneImm (fieldX w) (fieldKK w))
  | 0x5 => if fieldN w = 0 then .ok (.seReg (fieldX w) (fieldY w)) else .error .skipSelector
  | 0x6 => .ok (.ldImm (fieldX w) (fieldKK w))
  | 0x7 => .ok (.addImm (fieldX w) (fieldKK w))
  | 0x8 => decodeAlu (fieldX w) (fieldY w) (fieldN w)
  | 0x9 => if fieldN w = 0 then .ok (.sneReg (fieldX w) (fieldY w)) else .error .skipSelector
  | 0xA => .ok (.ldI (fieldNNN w))
  | 0xB => .ok (.jpV0 (fieldNNN w))
  | 0xC => .ok (.rnd (fieldX w) (fieldKK w))
  | 0xD => .ok (.drw (fieldX w) (fieldY w) (fieldN w))
  | 0xE => .error .familyE
  | _ => decodeMisc (fieldX w) (fieldKK w)

/-- The instruction in the first two bytes of a byte list and the bytes after it (rule R60: every
instruction is two bytes); `none` when fewer than two bytes are there. -/
def decodeBytes : List Byte → Option (Except Unrecognized Instr × List Byte)
  | hi :: lo :: rest => some (decode (wordOfBytes hi lo), rest)
  | _ => none

/-! ## The encoder (rule R60, and the Encoding line of each instruction's rule) -/

/-- The word of an instruction. -/
def encode : Instr → Word
  | .cls => 0x00E0#16
  | .ret => 0x00EE#16
  | .jp nnn => 0x1#4 ++ nnn
  | .call nnn => 0x2#4 ++ nnn
  | .seImm x kk => 0x3#4 ++ x ++ kk
  | .sneImm x kk => 0x4#4 ++ x ++ kk
  | .seReg x y => 0x5#4 ++ x ++ y ++ 0x0#4
  | .ldImm x kk => 0x6#4 ++ x ++ kk
  | .addImm x kk => 0x7#4 ++ x ++ kk
  | .ldReg x y => 0x8#4 ++ x ++ y ++ 0x0#4
  | .orReg x y => 0x8#4 ++ x ++ y ++ 0x1#4
  | .andReg x y => 0x8#4 ++ x ++ y ++ 0x2#4
  | .xorReg x y => 0x8#4 ++ x ++ y ++ 0x3#4
  | .addReg x y => 0x8#4 ++ x ++ y ++ 0x4#4
  | .sub x y => 0x8#4 ++ x ++ y ++ 0x5#4
  | .shr x y => 0x8#4 ++ x ++ y ++ 0x6#4
  | .subn x y => 0x8#4 ++ x ++ y ++ 0x7#4
  | .shl x y => 0x8#4 ++ x ++ y ++ 0xE#4
  | .sneReg x y => 0x9#4 ++ x ++ y ++ 0x0#4
  | .ldI nnn => 0xA#4 ++ nnn
  | .jpV0 nnn => 0xB#4 ++ nnn
  | .rnd x kk => 0xC#4 ++ x ++ kk
  | .drw x y n => 0xD#4 ++ x ++ y ++ n
  | .ldVxDt x => 0xF#4 ++ x ++ 0x07#8
  | .ldVxK x => 0xF#4 ++ x ++ 0x0A#8
  | .ldDtVx x => 0xF#4 ++ x ++ 0x15#8
  | .ldStVx x => 0xF#4 ++ x ++ 0x18#8
  | .addI x => 0xF#4 ++ x ++ 0x1E#8
  | .ldF x => 0xF#4 ++ x ++ 0x29#8
  | .ldB x => 0xF#4 ++ x ++ 0x33#8
  | .ldMemVx x => 0xF#4 ++ x ++ 0x55#8
  | .ldVxMem x => 0xF#4 ++ x ++ 0x65#8

/-- The bytes of an instruction in memory order (rule R41). -/
def encodeBytes (i : Instr) : List Byte := [highByte (encode i), lowByte (encode i)]

/-! ## The opcode table (spec/opcode_table.json) -/

/-- One row of the table: a word matches when its bits under `mask` are those of `pattern`. -/
structure OpcodeRow where
  mnemonic : String
  pattern : Word
  mask : Word
  deriving DecidableEq, Repr

/-- Does a word match the row? -/
def OpcodeRow.matches (r : OpcodeRow) (w : Word) : Bool := w &&& r.mask == r.pattern

/-- Families 0x0 to 0x7 of the table. -/
def opcodeRowsLow : List OpcodeRow :=
  [⟨"CLS", 0x00E0, 0xFFFF⟩, ⟨"RET", 0x00EE, 0xFFFF⟩, ⟨"JP_nnn", 0x1000, 0xF000⟩,
   ⟨"CALL_nnn", 0x2000, 0xF000⟩, ⟨"SE_Vx__kk", 0x3000, 0xF000⟩, ⟨"SNE_Vx__kk", 0x4000, 0xF000⟩,
   ⟨"SE_Vx__Vy", 0x5000, 0xF00F⟩, ⟨"LD_Vx__kk", 0x6000, 0xF000⟩, ⟨"ADD_Vx__kk", 0x7000, 0xF000⟩]

/-- Family 0x8 of the table. -/
def opcodeRowsAlu : List OpcodeRow :=
  [⟨"LD_Vx__Vy", 0x8000, 0xF00F⟩, ⟨"OR_Vx__Vy", 0x8001, 0xF00F⟩, ⟨"AND_Vx__Vy", 0x8002, 0xF00F⟩,
   ⟨"XOR_Vx__Vy", 0x8003, 0xF00F⟩, ⟨"ADD_Vx__Vy", 0x8004, 0xF00F⟩, ⟨"SUB_Vx__Vy", 0x8005, 0xF00F⟩,
   ⟨"SHR_Vx__Vy", 0x8006, 0xF00F⟩, ⟨"SUBN_Vx__Vy", 0x8007, 0xF00F⟩, ⟨"SHL_Vx__Vy", 0x800E, 0xF00F⟩]

/-- Families 0x9 to 0xF of the table. -/
def opcodeRowsHigh : List OpcodeRow :=
  [⟨"SNE_Vx__Vy", 0x9000, 0xF00F⟩, ⟨"LD_I__nnn", 0xA000, 0xF000⟩, ⟨"JP_V0__nnn", 0xB000, 0xF000⟩,
   ⟨"RND_Vx__kk", 0xC000, 0xF000⟩, ⟨"DRW_Vx__Vy__n", 0xD000, 0xF000⟩, ⟨"LD_Vx__DT", 0xF007, 0xF0FF⟩,
   ⟨"LD_Vx__K", 0xF00A, 0xF0FF⟩, ⟨"LD_DT__Vx", 0xF015, 0xF0FF⟩, ⟨"LD_ST__Vx", 0xF018, 0xF0FF⟩,
   ⟨"ADD_I__Vx", 0xF01E, 0xF0FF⟩, ⟨"LD_F__Vx", 0xF029, 0xF0FF⟩, ⟨"LD_B__Vx", 0xF033, 0xF0FF⟩,
   ⟨"LD__I___Vx", 0xF055, 0xF0FF⟩, ⟨"LD_Vx___I", 0xF065, 0xF0FF⟩]

/-- The 32 rows of spec/opcode_table.json, in the table's order. -/
def opcodeTable : List OpcodeRow := opcodeRowsLow ++ opcodeRowsAlu ++ opcodeRowsHigh

/-- An instruction's mnemonic in spec/opcode_table.json. -/
def Instr.mnemonic : Instr → String
  | .cls => "CLS"
  | .ret => "RET"
  | .jp _ => "JP_nnn"
  | .call _ => "CALL_nnn"
  | .seImm _ _ => "SE_Vx__kk"
  | .sneImm _ _ => "SNE_Vx__kk"
  | .seReg _ _ => "SE_Vx__Vy"
  | .ldImm _ _ => "LD_Vx__kk"
  | .addImm _ _ => "ADD_Vx__kk"
  | .ldReg _ _ => "LD_Vx__Vy"
  | .orReg _ _ => "OR_Vx__Vy"
  | .andReg _ _ => "AND_Vx__Vy"
  | .xorReg _ _ => "XOR_Vx__Vy"
  | .addReg _ _ => "ADD_Vx__Vy"
  | .sub _ _ => "SUB_Vx__Vy"
  | .shr _ _ => "SHR_Vx__Vy"
  | .subn _ _ => "SUBN_Vx__Vy"
  | .shl _ _ => "SHL_Vx__Vy"
  | .sneReg _ _ => "SNE_Vx__Vy"
  | .ldI _ => "LD_I__nnn"
  | .jpV0 _ => "JP_V0__nnn"
  | .rnd _ _ => "RND_Vx__kk"
  | .drw _ _ _ => "DRW_Vx__Vy__n"
  | .ldVxDt _ => "LD_Vx__DT"
  | .ldVxK _ => "LD_Vx__K"
  | .ldDtVx _ => "LD_DT__Vx"
  | .ldStVx _ => "LD_ST__Vx"
  | .addI _ => "ADD_I__Vx"
  | .ldF _ => "LD_F__Vx"
  | .ldB _ => "LD_B__Vx"
  | .ldMemVx _ => "LD__I___Vx"
  | .ldVxMem _ => "LD_Vx___I"

/-! ## The assembler (rules R76, R77) -/

/-- The line that spells a word: its instruction's line, or `DW` for an unrecognized word. -/
def disassemble (w : Word) : Line :=
  match decode w with
  | .ok i => i.line
  | .error _ => ⟨.dw, [.num w.toNat]⟩

/-- The instruction a line's mnemonic and operands name, numbers cut to their fields. -/
def Line.instr : Line → Option Instr
  | ⟨.cls, []⟩ => some .cls
  | ⟨.ret, []⟩ => some .ret
  | ⟨.jp, [.num nnn]⟩ => some (.jp (.ofNat 12 nnn))
  | ⟨.call, [.num nnn]⟩ => some (.call (.ofNat 12 nnn))
  | ⟨.se, [.reg x, .num kk]⟩ => some (.seImm (.ofNat 4 x) (.ofNat 8 kk))
  | ⟨.sne, [.reg x, .num kk]⟩ => some (.sneImm (.ofNat 4 x) (.ofNat 8 kk))
  | ⟨.se, [.reg x, .reg y]⟩ => some (.seReg (.ofNat 4 x) (.ofNat 4 y))
  | ⟨.ld, [.reg x, .num kk]⟩ => some (.ldImm (.ofNat 4 x) (.ofNat 8 kk))
  | ⟨.add, [.reg x, .num kk]⟩ => some (.addImm (.ofNat 4 x) (.ofNat 8 kk))
  | ⟨.ld, [.reg x, .reg y]⟩ => some (.ldReg (.ofNat 4 x) (.ofNat 4 y))
  | ⟨.or', [.reg x, .reg y]⟩ => some (.orReg (.ofNat 4 x) (.ofNat 4 y))
  | ⟨.and', [.reg x, .reg y]⟩ => some (.andReg (.ofNat 4 x) (.ofNat 4 y))
  | ⟨.xor', [.reg x, .reg y]⟩ => some (.xorReg (.ofNat 4 x) (.ofNat 4 y))
  | ⟨.add, [.reg x, .reg y]⟩ => some (.addReg (.ofNat 4 x) (.ofNat 4 y))
  | ⟨.sub, [.reg x, .reg y]⟩ => some (.sub (.ofNat 4 x) (.ofNat 4 y))
  | ⟨.shr, [.reg x, .reg y]⟩ => some (.shr (.ofNat 4 x) (.ofNat 4 y))
  | ⟨.shr, [.reg x]⟩ => some (.shr (.ofNat 4 x) 0)
  | ⟨.subn, [.reg x, .reg y]⟩ => some (.subn (.ofNat 4 x) (.ofNat 4 y))
  | ⟨.shl, [.reg x, .reg y]⟩ => some (.shl (.ofNat 4 x) (.ofNat 4 y))
  | ⟨.shl, [.reg x]⟩ => some (.shl (.ofNat 4 x) 0)
  | ⟨.sne, [.reg x, .reg y]⟩ => some (.sneReg (.ofNat 4 x) (.ofNat 4 y))
  | ⟨.ld, [.addrReg, .num nnn]⟩ => some (.ldI (.ofNat 12 nnn))
  | ⟨.jp, [.reg _, .num nnn]⟩ => some (.jpV0 (.ofNat 12 nnn))
  | ⟨.rnd, [.reg x, .num kk]⟩ => some (.rnd (.ofNat 4 x) (.ofNat 8 kk))
  | ⟨.drw, [.reg x, .reg y, .num n]⟩ => some (.drw (.ofNat 4 x) (.ofNat 4 y) (.ofNat 4 n))
  | ⟨.ld, [.reg x, .dt]⟩ => some (.ldVxDt (.ofNat 4 x))
  | ⟨.ld, [.reg x, .key]⟩ => some (.ldVxK (.ofNat 4 x))
  | ⟨.ld, [.dt, .reg x]⟩ => some (.ldDtVx (.ofNat 4 x))
  | ⟨.ld, [.st, .reg x]⟩ => some (.ldStVx (.ofNat 4 x))
  | ⟨.add, [.addrReg, .reg x]⟩ => some (.addI (.ofNat 4 x))
  | ⟨.ld, [.font, .reg x]⟩ => some (.ldF (.ofNat 4 x))
  | ⟨.ld, [.bcd, .reg x]⟩ => some (.ldB (.ofNat 4 x))
  | ⟨.ld, [.memI, .reg x]⟩ => some (.ldMemVx (.ofNat 4 x))
  | ⟨.ld, [.reg x, .memI]⟩ => some (.ldVxMem (.ofNat 4 x))
  | _ => none

/-- The word of a `DW` line, which rule R76 gives to unrecognized words only. -/
def Line.dataWord : Line → Option Word
  | ⟨.dw, [.num w]⟩ =>
    match decode (.ofNat 16 w) with
    | .ok _ => none
    | .error _ => some (.ofNat 16 w)
  | _ => none

/-- The one word a well-formed line spells (rule R77). -/
def Line.assemble (l : Line) : Option Word :=
  if l.wellFormed then
    match l.instr with
    | some i => some (encode i)
    | none => l.dataWord
  else none

/-! ## The host's reading of a table word -/

/-- The instruction the decoder reads from a table row's bits: bit 0 is the least significant bit of
the one 16-bit word, the word's bytes are laid out as rule R41 says and given to `decodeBytes`. -/
def decodeTableWord (nbits w : Nat) : Option Instr :=
  let word : Word := .ofNat 16 (w % 2 ^ nbits)
  match decodeBytes [highByte word, lowByte word] with
  | some (.ok i, _) => some i
  | _ => none

end Sys2Proof
end

