-- ==== Sys2Proof/Machine/ControlFlow.lean ====
section
/-! DEFINITION. The meanings of return, jumps, call and skips (40_control_flow.md). A meaning gets the
state BEFORE the fetch, so `s.pc` is the address a of the instruction, and it advances pc itself
(rule R63); a fault is taken in that state, which is what rule R125 asks. -/

namespace Sys2Proof.Machine

/-- `00EE` RET (rule R79). -/
def execRet (s : State) : Result :=
  match s.pop with
  | some (a, t) => .next (t.setPc a)
  | none => .next (s.takeFault .stackUnderflow (some (encode .ret)) s.pc.toNat)

/-- `1nnn` JP (rule R80). -/
def execJp (nnn : Addr12) (s : State) : Result := .next (s.setPc (target nnn))

/-- `2nnn` CALL (rule R81): the pushed address is that of the instruction after the call. -/
def execCall (nnn : Addr12) (s : State) : Result :=
  match s.push s.advance.pc with
  | some t => .next (t.setPc (target nnn))
  | none => .next (s.takeFault .stackOverflow (some (encode (.call nnn))) s.pc.toNat)

/-- `3xkk` SE (rule R82). -/
def execSeImm (x : Nibble) (kk : Byte) (s : State) : Result :=
  .next (s.advance.skipIf (decide (s.readV x = kk)))

/-- `4xkk` SNE (rule R83). -/
def execSneImm (x : Nibble) (kk : Byte) (s : State) : Result :=
  .next (s.advance.skipIf (decide (s.readV x ≠ kk)))

/-- `5xy0` SE (rule R84). -/
def execSeReg (x y : Nibble) (s : State) : Result :=
  .next (s.advance.skipIf (decide (s.readV x = s.readV y)))

/-- `9xy0` SNE (rule R85). -/
def execSneReg (x y : Nibble) (s : State) : Result :=
  .next (s.advance.skipIf (decide (s.readV x ≠ s.readV y)))

/-- `Bnnn` JP V0 (rule R86): the sum is not reduced modulo 4096. -/
def execJpV0 (nnn : Addr12) (s : State) : Result := .next (s.setPc (offsetTarget nnn (s.readV 0)))

end Sys2Proof.Machine
end

