-- ==== Sys2Proof/Machine/Display.lean ====
section
/-! DEFINITION. The meanings of the two display instructions (43_display.md). -/

namespace Sys2Proof.Machine

/-- `00E0` CLS (rule R115). -/
def execCls (s : State) : Result := .next s.advance.clearFb

/-- The sprite drawn and VF set to the collision bit (rules R111, R116), for sprite bytes already
read. The coordinates are read before VF is written. -/
def State.draw (s : State) (x y : Nibble) (bytes : List Byte) : State :=
  let out := drawSprite (s.readV x) (s.readV y) 0 bytes s.fb
  { s with fb := out.1 }.writeV flagReg (collisionFlag out.2)

/-- `Dxyn` DRW (rules R116, R117): with n = 0 no byte is read, so I is not checked. -/
def execDrw (x y n : Nibble) (s : State) : Result :=
  if n = 0 ∨ inRange s.base n.toNat = true then
    .next (s.advance.draw x y (s.mem.readBytes s.base n.toNat))
  else
    .next (s.takeFault .readOutOfRange (some (encode (.drw x y n))) (firstOutOfRange s.base))

end Sys2Proof.Machine
end

