-- ==== Sys2Proof/Machine/IndexMemory.lean ====
section
/-! DEFINITION. The meanings of the address-register instructions and of the memory transfers through
I (42_index_memory.md). Every byte is checked before any is accessed (rule R44), and I is never
changed by a transfer. -/

namespace Sys2Proof.Machine

/-- `Annn` LD I (rule R104). -/
def execLdI (nnn : Addr12) (s : State) : Result := .next (s.advance.setI (target nnn))

/-- `Fx1E` ADD I (rule R105): modulo 2^16, no flag. -/
def execAddI (x : Nibble) (s : State) : Result := .next (s.advance.setI (s.i + zext16 (s.readV x)))

/-- `Fx29` LD F (rule R106). -/
def execLdF (x : Nibble) (s : State) : Result := .next (s.advance.setI (glyphAddress (s.readV x)))

/-- Bytes stored through I, or `WRITE_OUT_OF_RANGE` when not all of them are in range (rules R43,
R44): the shape of `Fx33` and `Fx55`. `word` is the instruction's own word. -/
def State.storeThroughI (s : State) (word : Word) (bs : List Byte) : State :=
  if inRange s.base bs.length then s.advance.storeBytes s.base bs
  else s.takeFault .writeOutOfRange (some word) (firstOutOfRange s.base)

/-- `Fx33` LD B (rule R107). -/
def execLdB (x : Nibble) (s : State) : Result :=
  .next (s.storeThroughI (encode (.ldB x)) (bcdDigits (s.readV x)))

/-- `Fx55` LD [I], Vx (rule R108). -/
def execLdMemVx (x : Nibble) (s : State) : Result :=
  .next (s.storeThroughI (encode (.ldMemVx x)) (s.regsUpTo x))

/-- `Fx65` LD Vx, [I] (rule R109). -/
def execLdVxMem (x : Nibble) (s : State) : Result :=
  if inRange s.base (blockLength x) then .next (s.advance.loadRegs x s.base)
  else .next (s.takeFault .readOutOfRange (some (encode (.ldVxMem x))) (firstOutOfRange s.base))

end Sys2Proof.Machine
end

