-- ==== Sys2Proof/Machine/TimersKeypad.lean ====
section
/-! DEFINITION. The meanings of the timer instructions and of the key wait (44_timers_keypad.md). -/

namespace Sys2Proof.Machine

/-- `Fx07` LD Vx, DT (rule R119). -/
def execLdVxDt (x : Nibble) (s : State) : Result := .next (s.advance.writeV x s.dt)

/-- `Fx0A` LD Vx, K (rule R122): pc is past the instruction during the wait. -/
def execLdVxK (x : Nibble) (s : State) : Result := .next (s.advance.awaitKey x)

/-- `Fx15` LD DT, Vx (rule R120). -/
def execLdDtVx (x : Nibble) (s : State) : Result := .next (s.advance.setDT (s.readV x))

/-- `Fx18` LD ST, Vx (rule R121). -/
def execLdStVx (x : Nibble) (s : State) : Result := .next (s.advance.setST (s.readV x))

end Sys2Proof.Machine
end

