-- ==== Sys2Proof/Machine/Step.lean ====
section
/-! DEFINITION. One step of the machine (rules R63, R64), and the host's placing of a word where the
next step fetches it. -/

namespace Sys2Proof.Machine

/-- `Step` of rule R63: enabled only in Running (rule R64). Fetch and its check, decode, then the
instruction, or the no-op of an unrecognized word (rule R73). -/
def step (s : State) : Host.Outcome State Fault Refusal :=
  match s.run with
  | .awaitKey x => .fault (.awaitingKey x)
  | .faulted r => .fault (.halted r)
  | .running =>
    match s.fetchBytes with
    | none => .next s.fetchFault
    | some (hi, lo) =>
      match decode (wordOfBytes hi lo) with
      | .ok i => exec i s
      | .error _ => .next s.skipUnrecognized

/-- `s` made ready to fetch: Running, and pc kept wherever it can be fetched, else `PROG_START`. -/
def State.readyToFetch (s : State) : State :=
  { s with run := .running,
           pc := if inRange s.pc.toNat 2 then s.pc else .ofNat 16 Config.progStart }

/-- `s` with a table row's word (bit 0 the least significant of the one 16-bit word, bits above
`nbits` zero) stored at pc, high byte first (rule R41), so that the next step fetches it. It
stands for the outside load of a program, log entry 5. -/
def State.withFetchWord (s : State) (nbits w : Nat) : State :=
  let word : Word := .ofNat 16 (w % 2 ^ nbits)
  s.readyToFetch.storeBytes s.readyToFetch.pc.toNat [highByte word, lowByte word]

end Sys2Proof.Machine
end

