-- ==== Sys2Proof/Machine/Ports.lean ====
section
/-! DEFINITION. The block's other ports (rule R139): load, tick, key, the framebuffer read, and the
outputs report, fault and awaiting; and the driver's transitions in any order (rule R132). -/

namespace Sys2Proof.Machine

/-! ## Load (rules R57 to R59, R144) -/

/-- The load errors of rule R129. -/
inductive LoadError where
  /-- The image is longer than 3584 bytes; carries its length (rule R58). -/
  | imageTooLarge (length : Nat)
  /-- The driver could not read the program source (rule R59). -/
  | sourceUnreadable
  deriving DecidableEq, Repr

/-- The memory load builds (rule R57): zeros and the font, which is what an unlisted address reads as,
then the image from 0x200 on. -/
def loadMemory (image : List Byte) : Memory := Memory.writeBytes [] Config.progStart image

/-- `load(image)` (rule R144): a new machine, or no machine at all. It takes no old state, since it
keeps nothing of one. -/
def load (l : Launch) (image : List Byte) : Except LoadError State :=
  if image.length ≤ Config.maxImage then .ok (.launch l (loadMemory image))
  else .error (.imageTooLarge image.length)

/-- The driver's load from a program source that may be unreadable (rule R59). -/
def loadSource (l : Launch) : Option (List Byte) → Except LoadError State
  | none => .error .sourceUnreadable
  | some image => load l image

/-! ## Tick and key (rules R123, R133) -/

/-- One timer counted down: at 0 it stays at 0 (rule R133). -/
def countDown (b : Byte) : Byte := if b = 0 then 0 else b - 1

/-- `Tick` (rules R133, R135): nothing in Faulted (rule R126). -/
def State.tick (s : State) : State :=
  if s.isFaulted then s else (s.setDT (countDown s.dt)).setST (countDown s.st)

/-- `Key(k)` (rule R123): it ends a wait, and is discarded otherwise. -/
def State.key (s : State) (k : Nibble) : State :=
  match s.run with
  | .awaitKey x => (s.writeV x (k.setWidth 8)).resume
  | _ => s

/-! ## Outputs (rules R118, R125, R128, R139) -/

/-- `fb_read`: the 32 row words (rule R118). -/
def State.fbRead (s : State) : Vector Row 32 := s.fb

/-- The unrecognized-opcode report `Unrecognized(word, addr)` (rule R128). -/
structure Report where
  word : Word
  addr : Word
  deriving DecidableEq, Repr

/-- The report that the step from `s` emits, if any: an output of the step, not state (rule R34, log
entry 7). -/
def State.report (s : State) : Option Report :=
  match s.run, s.fetchBytes with
  | .running, some (hi, lo) =>
    match decode (wordOfBytes hi lo) with
    | .ok _ => none
    | .error _ => some ⟨wordOfBytes hi lo, s.pc⟩
  | _, _ => none

/-- The fault output: the record once a fault occurred (rules R125, R139). -/
def State.faultOut (s : State) : Option FaultRecord :=
  match s.run with
  | .faulted r => some r
  | _ => none

/-- The awaiting output: true exactly in AwaitKey (rules R122, R139). -/
def State.awaiting (s : State) : Bool :=
  match s.run with
  | .awaitKey _ => true
  | _ => false

/-! ## The driver's transitions (rule R132) -/

/-- The transitions of a built machine. The framebuffer read is not among them: it changes nothing
(rule R118). A new load is not one either: it builds another machine (rule R144). -/
inductive Action where
  | step
  | tick
  | key (k : Nibble)
  deriving DecidableEq, Repr

/-- One transition, complete before the next begins. -/
def act : Action → State → Result
  | .step, s => Sys2Proof.Machine.step s
  | .tick, s => .next s.tick
  | .key k, s => .next (s.key k)

/-- Transitions in the order the driver chose, up to the first that is not enabled. -/
def actAll : List Action → State → Result
  | [], s => .next s
  | a :: as, s =>
    match act a s with
    | .next t => actAll as t
    | .fault f => .fault f
    | .refused r => .refused r

end Sys2Proof.Machine
end

