-- ==== Sys2Proof/Safety.lean ====
section
/-! DEFINITION. What a run of the machine is measured by, in the terms claims use: final, waiting and
faulted states (rule R153), a safe step, the invariant, and what it means that a transition left a
part of the state unchanged. -/

namespace Sys2Proof.Machine

/-! ## The end of a run (rule R153) -/

/-- The word at pc, for a pc that can be fetched. -/
def State.wordAtPc (s : State) : Word :=
  wordOfBytes (s.readMem s.pc.toNat) (s.readMem (s.pc.toNat + 1))

/-- A final state: Running, pc ≤ 0xFFE, and the word at pc is a jump to pc itself. -/
abbrev State.isFinal (s : State) : Prop :=
  s.run = .running ∧ s.pc.toNat ≤ 0xFFE ∧ s.wordAtPc = encode (.jp (s.pc.setWidth 12))

/-- A safe step: it is enabled and takes no fault. -/
def SafeStep (s : State) : Prop := ∃ t, step s = .next t ∧ t.isFaulted = false

/-! ## The invariant -/

/-- How many bytes an instruction reads through I (the table of rule R124, rules R109, R116). -/
def readLength : Instr → Nat
  | .drw _ _ n => n.toNat
  | .ldVxMem x => x.toNat + 1
  | .cls | .ret | .jp _ | .call _ | .seImm _ _ | .sneImm _ _ | .seReg _ _ | .sneReg _ _ | .ldImm _ _
  | .addImm _ _ | .ldReg _ _ | .orReg _ _ | .andReg _ _ | .xorReg _ _ | .addReg _ _ | .sub _ _
  | .shr _ _ | .subn _ _ | .shl _ _ | .ldI _ | .jpV0 _ | .rnd _ _ | .ldVxDt _ | .ldVxK _ | .ldDtVx _
  | .ldStVx _ | .addI _ | .ldF _ | .ldB _ | .ldMemVx _ => 0

/-- How many bytes an instruction writes through I (the table of rule R124, rules R107, R108). -/
def writeLength : Instr → Nat
  | .ldB _ => 3
  | .ldMemVx x => x.toNat + 1
  | .cls | .ret | .jp _ | .call _ | .seImm _ _ | .sneImm _ _ | .seReg _ _ | .sneReg _ _ | .ldImm _ _
  | .addImm _ _ | .ldReg _ _ | .orReg _ _ | .andReg _ _ | .xorReg _ _ | .addReg _ _ | .sub _ _
  | .shr _ _ | .subn _ _ | .shl _ _ | .ldI _ | .jpV0 _ | .rnd _ _ | .drw _ _ _ | .ldVxDt _ | .ldVxK _
  | .ldDtVx _ | .ldStVx _ | .addI _ | .ldF _ | .ldVxMem _ => 0

/-- `a` is the lowest of the n addresses from I that lies past memory (rule R124). -/
def State.lowestPast (s : State) (n a : Nat) : Prop :=
  a = max s.i.toNat Config.memSize ∧ a < s.i.toNat + n

/-- What rule R124 says of a fault record, for the state it was taken in: pc, the instruction's word, the
instruction that the cause belongs to, and the address of the table. -/
def FaultRecord.fits (r : FaultRecord) (s : State) : Prop :=
  r.pc = s.pc ∧
  match r.cause with
  | .fetchOutOfRange => r.word = none ∧ r.addr = s.pc.toNat ∧ 0xFFF ≤ s.pc.toNat
  | .readOutOfRange => r.word = some s.wordAtPc ∧
      ∃ i, decode s.wordAtPc = .ok i ∧ s.lowestPast (readLength i) r.addr
  | .writeOutOfRange => r.word = some s.wordAtPc ∧
      ∃ i, decode s.wordAtPc = .ok i ∧ s.lowestPast (writeLength i) r.addr
  | .stackOverflow => r.word = some s.wordAtPc ∧ r.addr = s.pc.toNat ∧ s.sp = 15 ∧
      ∃ nnn, decode s.wordAtPc = .ok (.call nnn)
  | .stackUnderflow => r.word = some s.wordAtPc ∧ r.addr = s.pc.toNat ∧ s.sp = -1 ∧
      decode s.wordAtPc = .ok .ret

/-- The invariant: memory is in canonical form, pc is at most 0x10FE (rule R23), every live return
address is at most 0x1000 (rule R79), and a fault record fits the state it was taken in. -/
structure State.Inv (s : State) : Prop where
  memory : s.mem.wf = true
  pcBound : s.pc.toNat ≤ 0x10FE
  returns : ∀ k : Fin 16, k.val < s.depth.val → s.stack[k].toNat ≤ 0x1000
  record : ∀ r, s.run = .faulted r → r.fits s

/-! ## Frames -/

/-- The parts of the state beside the general registers and pc. -/
inductive Part where
  | i | stack | dt | st | mem | fb | run | draws
  deriving DecidableEq, Repr

/-- The part is the same in both states. Memory is compared byte by byte through `readMem`, the stack
is sp and every slot. -/
def Part.same : Part → State → State → Prop
  | .i, s, t => t.i = s.i
  | .stack, s, t => t.sp = s.sp ∧ ∀ k : Fin 16, t.stack[k] = s.stack[k]
  | .dt, s, t => t.dt = s.dt
  | .st, s, t => t.st = s.st
  | .mem, s, t => ∀ a, t.readMem a = s.readMem a
  | .fb, s, t => ∀ r : Fin 32, t.fb[r] = s.fb[r]
  | .run, s, t => t.run = s.run
  | .draws, s, t => t.draws = s.draws

/-- From s to t nothing changed but pc, the general registers that `regs` names, and the parts
listed. -/
def Unchanged (s t : State) (regs : Nibble → Bool) (parts : List Part) : Prop :=
  (∀ r, regs r = false → t.readV r = s.readV r) ∧ ∀ p, p ∉ parts → p.same s t

/-- No general register. -/
def noReg : Nibble → Bool := fun _ => false

/-- The register x only. -/
def onlyReg (x : Nibble) : Nibble → Bool := fun r => r == x

/-- The register x and VF. -/
def regAndFlag (x : Nibble) : Nibble → Bool := fun r => r == x || r == flagReg

/-- V0..=Vx. -/
def regsThrough (x : Nibble) : Nibble → Bool := fun r => decide (r.toNat ≤ x.toNat)

/-- The general registers an instruction may write (rule R16). `Fx0A` writes none itself: the key
event does. -/
def writtenRegs : Instr → Nibble → Bool
  | .ldImm x _ | .addImm x _ | .ldReg x _ | .orReg x _ | .andReg x _ | .xorReg x _ | .rnd x _
  | .ldVxDt x => onlyReg x
  | .addReg x _ | .sub x _ | .shr x _ | .subn x _ | .shl x _ => regAndFlag x
  | .drw _ _ _ => onlyReg flagReg
  | .ldVxMem x => regsThrough x
  | .cls | .ret | .jp _ | .call _ | .seImm _ _ | .sneImm _ _ | .seReg _ _ | .sneReg _ _ | .ldI _
  | .jpV0 _ | .ldVxK _ | .ldDtVx _ | .ldStVx _ | .addI _ | .ldF _ | .ldB _ | .ldMemVx _ => noReg

/-- The sprite byte at row k lights column c of framebuffer row r, for the origin (x, y): the pixel
reading of rules R113 and R114, bit 7 - j of the byte at column (x + j) mod 64. -/
def spriteLights (x y : Byte) (k : Nat) (b : Byte) (c : Fin 64) (r : Fin 32) : Prop :=
  (y.toNat + k) % 32 = r.val ∧ ∃ j < 8, (x.toNat + j) % 64 = c.val ∧ b.getLsbD (7 - j) = true

end Sys2Proof.Machine
end

