-- ==== Sys2Proof/Certificates/Slice0/Obligations.lean ====
section
/-! DEFINITION. The statements for the provers. Each docstring names the part of the spec it formalises;
where a clause rests on the spec's own decision (a row of 92_eei_decisions.md) or on the model's
(a log entry), the docstring says so. exec gets the state before the fetch, so `s.pc` is the address
of the instruction and a result's `s.pc + 2` is the address after it. -/

open Sys2Proof Sys2Proof.Machine

/-- Every instruction, with every operand at every value its field admits, is well-formed and survives
encode then decode, as a word and as bytes in memory order (30_encoding.md, the formats of section 1 and
the decoder of section 3). -/
def Obligations.DecodeOfEncodeIsTheInstruction : Prop :=
  ∀ (i : Instr) (rest : List Byte),
    i.wellFormed = true ∧ decode (encode i) = .ok i ∧
    decodeBytes (encodeBytes i ++ rest) = some (.ok i, rest)

/-- No bit of a recognized word is lost by the decoder, the y field of the shifts included (30_encoding.md
sections 1 and 3). -/
def Obligations.EncodeOfDecodeIsTheWord : Prop :=
  ∀ (w : Word) (i : Instr), decode w = .ok i → encode i = w

/-- The notation is the spec's own choice (its decision D32): the line that spells a word, recognized or not,
is well-formed and assembles back to exactly that word. -/
def Obligations.AssembleOfDisassembleIsTheWord : Prop :=
  ∀ w : Word, (disassemble w).wellFormed = true ∧ (disassemble w).assemble = some w

/-- The decoder and the machine-readable opcode table agree: a recognized word matches exactly one row, the row
with its instruction's mnemonic, and no other row; an unrecognized word matches none. -/
def Obligations.DecoderAcceptsExactlyTheTableRows : Prop :=
  ∀ w : Word,
    (∀ i, decode w = .ok i →
      (∃ r, opcodeTable.filter (fun q => q.matches w) = [r] ∧ r.mnemonic = i.mnemonic) ∧
      ∀ r ∈ opcodeTable, (r.matches w = true ↔ r.mnemonic = i.mnemonic)) ∧
    (∀ e, decode w = .error e → ∀ r ∈ opcodeTable, r.matches w = false)

/-- The families of unrecognized words (the spec's decisions D19, D20 and D21 for families 5, 9, E and 0),
read off the word as a number. -/
def Obligations.UnrecognizedWordsAreTheListedOnes : Prop :=
  ∀ w : Word,
    (∃ e, decode w = .error e) ↔
      (w.toNat / 4096 = 0 ∧ w.toNat ≠ 0x00E0 ∧ w.toNat ≠ 0x00EE) ∨
      ((w.toNat / 4096 = 5 ∨ w.toNat / 4096 = 9) ∧ w.toNat % 16 ≠ 0) ∨
      (w.toNat / 4096 = 8 ∧ w.toNat % 16 ∈ [8, 9, 0xA, 0xB, 0xC, 0xD, 0xF]) ∨
      w.toNat / 4096 = 0xE ∨
      (w.toNat / 4096 = 0xF ∧
        w.toNat % 256 ∉ [0x07, 0x0A, 0x15, 0x18, 0x1E, 0x29, 0x33, 0x55, 0x65])

/-- Rules R69 and R70: in family 8 the low nibble, in family F the low byte, decides whether the word is an
instruction, whatever the other fields hold. -/
def Obligations.AluAndMiscSelectorsAreRecognized : Prop :=
  ∀ w : Word,
    (w.toNat / 4096 = 8 →
      ((∃ i, decode w = .ok i) ↔ w.toNat % 16 ∈ [0, 1, 2, 3, 4, 5, 6, 7, 0xE]) ∧
      ((∃ e, decode w = .error e) ↔ w.toNat % 16 ∈ [8, 9, 0xA, 0xB, 0xC, 0xD, 0xF])) ∧
    (w.toNat / 4096 = 0xF →
      ((∃ i, decode w = .ok i) ↔
        w.toNat % 256 ∈ [0x07, 0x0A, 0x15, 0x18, 0x1E, 0x29, 0x33, 0x55, 0x65])) ∧
    (∀ x y n : Nibble, ∀ i, decode (0x8#4 ++ x ++ y ++ n) = .ok i →
      (n = 0x0 → i = .ldReg x y) ∧ (n = 0x1 → i = .orReg x y) ∧ (n = 0x2 → i = .andReg x y) ∧
      (n = 0x3 → i = .xorReg x y) ∧ (n = 0x4 → i = .addReg x y) ∧ (n = 0x5 → i = .sub x y) ∧
      (n = 0x6 → i = .shr x y) ∧ (n = 0x7 → i = .subn x y) ∧ (n = 0xE → i = .shl x y)) ∧
    (∀ (x : Nibble) (kk : Byte), ∀ i, decode (0xF#4 ++ x ++ kk) = .ok i →
      (kk = 0x07 → i = .ldVxDt x) ∧ (kk = 0x0A → i = .ldVxK x) ∧ (kk = 0x15 → i = .ldDtVx x) ∧
      (kk = 0x18 → i = .ldStVx x) ∧ (kk = 0x1E → i = .addI x) ∧ (kk = 0x29 → i = .ldF x) ∧
      (kk = 0x33 → i = .ldB x) ∧ (kk = 0x55 → i = .ldMemVx x) ∧ (kk = 0x65 → i = .ldVxMem x))

/-- Words of the spec's vectors and examples: at least one instruction of each family but E, which has none, and
unrecognized words. -/
def Obligations.WordsOfTheVectorsDecode : Prop :=
  decode 0x00E0#16 = .ok .cls ∧ decode 0x00EE#16 = .ok .ret ∧ decode 0x1ABC#16 = .ok (.jp 0xABC) ∧
  decode 0x2400#16 = .ok (.call 0x400) ∧ decode 0x3342#16 = .ok (.seImm 3 0x42) ∧
  decode 0x4342#16 = .ok (.sneImm 3 0x42) ∧ decode 0x6A05#16 = .ok (.ldImm 0xA 0x05) ∧
  decode 0x5120#16 = .ok (.seReg 1 2) ∧ decode 0x9120#16 = .ok (.sneReg 1 2) ∧
  decode 0x71FF#16 = .ok (.addImm 1 0xFF) ∧ decode 0x8346#16 = .ok (.shr 3 4) ∧
  decode 0xA300#16 = .ok (.ldI 0x300) ∧ decode 0xBFFF#16 = .ok (.jpV0 0xFFF) ∧
  decode 0xC30F#16 = .ok (.rnd 3 0x0F) ∧ decode 0xDF11#16 = .ok (.drw 0xF 1 1) ∧
  decode 0xF30A#16 = .ok (.ldVxK 3) ∧ decode 0xFF65#16 = .ok (.ldVxMem 0xF) ∧
  decode 0x5121#16 = .error .skipSelector ∧ decode 0x800D#16 = .error .aluSelector ∧
  decode 0xE09E#16 = .error .familyE ∧ decode 0xF066#16 = .error .familyFSelector ∧
  decode 0x0123#16 = .error .familyZero

/-- The instruction cycle of 30_encoding.md section 2: when the machine is Running and both bytes at pc lie in
memory, big-endian, the step is exec of the decoded instruction. exec gets the state before the fetch and
advances pc itself. -/
def Obligations.StepRunsTheDecodedInstruction : Prop :=
  ∀ (s : State) (i : Instr), s.run = .running → s.pc.toNat + 2 ≤ 4096 →
    decode (s.readMem s.pc.toNat ++ s.readMem (s.pc.toNat + 1)) = .ok i → step s = exec i s

/-- The no-op of 30_encoding.md section 3 with the report of 60_exceptions.md section 2, whose fields are the
spec's own (D9); and no recognized word is reported. That the report is a function of the state before the
step is the model's choice, log entry 7. -/
def Obligations.UnrecognizedWordIsSkippedAndReported : Prop :=
  ∀ s : State, s.run = .running → s.pc.toNat + 2 ≤ 4096 →
    (∀ e, decode s.wordAtPc = .error e →
      s.report = some ⟨s.wordAtPc, s.pc⟩ ∧
      ∃ t, step s = .next t ∧ t.pc = s.pc + 2 ∧ t.faultOut = none ∧ Unchanged s t noReg []) ∧
    (∀ i, decode s.wordAtPc = .ok i → s.report = none)

/-- The fetch bounds check of 30_encoding.md section 2, with the record of 60_exceptions.md section 1; causes
and record are the spec's own decisions D7, D8 and D10. -/
def Obligations.FetchPastMemoryFaults : Prop :=
  ∀ s : State, s.run = .running → 0xFFF ≤ s.pc.toNat →
    ∃ t, step s = .next t ∧ t.faultOut = some ⟨.fetchOutOfRange, s.pc, none, s.pc.toNat⟩ ∧
      FaultCause.fetchOutOfRange.code = 1 ∧ t.pc = s.pc ∧ Unchanged s t noReg [.run]

/-- The enabling rule of 30_encoding.md section 2 (the spec's decision D36). That the model answers a fault
named awaitingKey or halted where no step is enabled is the model's choice, log entry 6. -/
def Obligations.StepIsEnabledExactlyInRunning : Prop :=
  ∀ s : State,
    ((∃ t, step s = .next t) ↔ s.run = .running) ∧
    (∀ x, s.run = .awaitKey x → step s = .fault (.awaitingKey x)) ∧
    (∀ r, s.run = .faulted r → step s = .fault (.halted r)) ∧
    (∀ q, step s ≠ .refused q)

/-- About the model's own withFetchWord (log entry 5): the placed word is decoded and run by the very next
step, and what the placing changes beside it is run and an unfetchable pc. -/
def Obligations.PlacedWordIsTheOneFetched : Prop :=
  ∀ (s : State) (i : Instr),
    decodeTableWord 16 (encode i).toNat = some i ∧
    step (s.withFetchWord 16 (encode i).toNat) = exec i (s.withFetchWord 16 (encode i).toNat) ∧
    (s.withFetchWord 16 (encode i).toNat).wordAtPc = encode i ∧
    Unchanged s (s.withFetchWord 16 (encode i).toNat) noReg [.mem, .run] ∧
    (s.withFetchWord 16 (encode i).toNat).run = .running ∧
    (s.pc.toNat + 2 ≤ 4096 →
      (s.withFetchWord 16 (encode i).toNat).pc = s.pc ∧
      ∀ a, a ≠ s.pc.toNat → a ≠ s.pc.toNat + 1 →
        (s.withFetchWord 16 (encode i).toNat).readMem a = s.readMem a)

/-- The precise fault entry of 60_exceptions.md section 1, the spec's own decisions D7 and D8: the state after
a faulting step is the state before the fetch with run := Faulted(record), and the record has the
pc, the instruction's word, and the address of the table of causes: for a range fault the lowest accessed
address that is 4096 or more. -/
def Obligations.FaultEntryIsPrecise : Prop :=
  ∀ s t : State, step s = .next t → t.isFaulted = true →
    ∃ r, t = { s with run := .faulted r } ∧ t.faultOut = some r ∧ r.fits s

/-- The table of causes of 60_exceptions.md section 1 (decisions D6, D8, D11): no other instruction and no
other condition faults. -/
def Obligations.OnlyTheListedConditionsFault : Prop :=
  ∀ (i : Instr) (s t : State), s.isFaulted = false → exec i s = .next t →
    (t.isFaulted = true ↔
      (i = .ret ∧ s.sp = -1) ∨
      (∃ nnn, i = .call nnn ∧ s.sp = 15) ∨
      (∃ x y n, i = .drw x y n ∧ n ≠ 0 ∧ 4096 < s.i.toNat + n.toNat) ∨
      (∃ x, i = .ldB x ∧ 4096 < s.i.toNat + 3) ∨
      (∃ x, (i = .ldMemVx x ∨ i = .ldVxMem x) ∧ 4096 < s.i.toNat + x.toNat + 1))

/-- 60_exceptions.md section 1 (decisions D7 and D22): after a fault, any ticks and keys leave the machine as it
is, and no step is enabled. That step answers the fault named halted there is the model's choice, log entry 6,
as actAll is for the driver's transitions, log entry 8. -/
def Obligations.FaultedIsAbsorbing : Prop :=
  ∀ (s : State) (as : List Action), s.isFaulted = true →
    (∀ a ∈ as, a ≠ .step) →
    actAll as s = .next s ∧ ∃ r, s.faultOut = some r ∧ actAll (as ++ [.step]) s = .fault (.halted r)

/-- The invariant of Safety.lean: canonical memory inside 4096 bytes, pc at most 0x10FE, live return addresses
at most 0x1000, a fault record that fits. The canonical form is the model's own representation, log entry 10. -/
def Obligations.EveryStepKeepsTheInvariant : Prop :=
  ∀ s t : State, s.Inv → step s = .next t → t.Inv

/-- Every interleaving of the driver's transitions (60_exceptions.md section 3, the spec's decision D31) keeps
the invariant. That they are functions beside step is the model's choice, log entry 8; so is the canonical
memory list that the invariant speaks of, log entry 10. -/
def Obligations.EveryRunOfTheDriverKeepsTheInvariant : Prop :=
  ∀ (as : List Action) (s t : State), s.Inv → actAll as s = .next t → t.Inv

/-- The reset state (its launch inputs are the model's choice, log entry 1) and the machine that any image of
legal length and any launch inputs make have the invariant, whose canonical
memory list is the model's choice, log entry 10. -/
def Obligations.ResetAndLoadedMachinesHaveTheInvariant : Prop :=
  State.reset.Inv ∧
  ∀ (l : Launch) (image : List Byte) (s : State), load l image = .ok s → s.Inv

/-- About the model's representation of the byte space: the canonical form of log entry 10 makes equal
memories equal data. -/
def Obligations.EqualReadsMakeEqualMemories : Prop :=
  ∀ m m' : Memory, m.wf = true → m'.wf = true →
    (∀ a < 4096, m.read a = m'.read a) → m = m'

/-- The list of register writes of 10_state.md section 2 (derived there), with VF for the flag-setting
instructions. -/
def Obligations.OnlyNamedInstructionsWriteGeneralRegisters : Prop :=
  ∀ (i : Instr) (s t : State) (r : Nibble), exec i s = .next t → writtenRegs i r = false →
    t.readV r = s.readV r

/-- 10_state.md section 3, with the spec's decision D17 that the transfers leave I unchanged; neither ticks nor
keys touch I. -/
def Obligations.OnlyThreeInstructionsWriteI : Prop :=
  ∀ (i : Instr) (s t : State) (k : Nibble), exec i s = .next t →
    (t.i = s.i ∨ (∃ nnn, i = .ldI nnn) ∨ (∃ x, i = .addI x) ∨ ∃ x, i = .ldF x) ∧
    s.tick.i = s.i ∧ (s.key k).i = s.i

/-- Rule R28 of 10_state.md: of the instructions only `Fx15` writes DT and only `Fx18` writes ST; what an
instruction does depends on DT for `Fx07` only (and `Fx15` overwrites it) and on ST for none (and `Fx18` overwrites it): for every other
one, replacing the timer before it only replaces it after. A key event, a fault and an unrecognized word change
neither, and the tick never raises a timer. That the tick leaves a timer at 0 alone is the spec's decision D22,
and which of Fx07, Fx15 and Fx18 reaches which timer its decision D34, both from general knowledge (log entry 11). -/
def Obligations.OnlyTimerInstructionsAndTheTickTouchTimers : Prop :=
  ∀ (i : Instr) (s t : State) (k : Nibble), exec i s = .next t →
    (t.dt = s.dt ∨ ∃ x, i = .ldDtVx x) ∧ (t.st = s.st ∨ ∃ x, i = .ldStVx x) ∧
    (∀ b, (∀ x, i ≠ .ldVxDt x) → (∀ x, i ≠ .ldDtVx x) →
      exec i { s with dt := b } = .next { t with dt := b }) ∧
    (∀ b, (∀ x, i ≠ .ldStVx x) → exec i { s with st := b } = .next { t with st := b }) ∧
    (∀ b, (∃ x, i = .ldDtVx x) → exec i { s with dt := b } = .next t) ∧
    (∀ b, (∃ x, i = .ldStVx x) → exec i { s with st := b } = .next t) ∧
    (s.key k).dt = s.dt ∧ (s.key k).st = s.st ∧
    s.skipUnrecognized.dt = s.dt ∧ s.skipUnrecognized.st = s.st ∧
    s.fetchFault.dt = s.dt ∧ s.fetchFault.st = s.st ∧
    s.tick.dt.toNat ≤ s.dt.toNat ∧ s.tick.st.toNat ≤ s.st.toNat

/-- Rule R39 as noninterference: every other instruction gives the same result whatever the stack (or the
framebuffer) holds, and leaves it as it is; the fetch reads neither; call and return do the same whatever memory
holds and leave every byte of it. -/
def Obligations.StackAndFramebufferAreReachedOnlyByTheirInstructions : Prop :=
  ∀ (i : Instr) (s t : State) (d : Fin 17) (k : Vector Word 16) (f : Vector Row 32),
    exec i s = .next t →
    (i ≠ .ret → (∀ nnn, i ≠ .call nnn) →
      exec i { s with depth := d, stack := k } = .next { t with depth := d, stack := k }) ∧
    (i ≠ .cls → (∀ x y n, i ≠ .drw x y n) → exec i { s with fb := f } = .next { t with fb := f }) ∧
    State.fetchBytes { s with depth := d, stack := k, fb := f } = s.fetchBytes ∧
    ((i = .ret ∨ ∃ nnn, i = .call nnn) →
      (∀ m, exec i { s with mem := m } = .next { t with mem := m }) ∧
      ∀ a, t.readMem a = s.readMem a) ∧
    (∀ b, s.tick.stack = s.stack ∧ s.tick.sp = s.sp ∧ s.tick.fb = s.fb ∧
      (s.key b).stack = s.stack ∧ (s.key b).sp = s.sp ∧ (s.key b).fb = s.fb) ∧
    s.fbRead = s.fb

/-- The writing rows of the access table of 20_memory.md section 1: the bytes I..I+2 for `Fx33`, I..=I+x for
`Fx55`; neither ticks nor keys access memory. -/
def Obligations.OnlyTheTwoStoresChangeMemory : Prop :=
  ∀ (i : Instr) (s t : State) (a : Nat) (k : Nibble), exec i s = .next t →
    (t.readMem a = s.readMem a ∨
      (∃ x, i = .ldB x ∧ s.i.toNat ≤ a ∧ a < s.i.toNat + 3) ∨
      (∃ x, i = .ldMemVx x ∧ s.i.toNat ≤ a ∧ a ≤ s.i.toNat + x.toNat)) ∧
    s.tick.readMem a = s.readMem a ∧ (s.key k).readMem a = s.readMem a

/-- The transitions of the control state in 10_state.md section 9 (decisions D7 and D25). -/
def Obligations.OnlyTheKeyWaitAndFaultsChangeRun : Prop :=
  ∀ (i : Instr) (s t : State), exec i s = .next t →
    t.run = s.run ∨ (∃ x, i = .ldVxK x ∧ t.run = .awaitKey x) ∨
      ∃ r, t.run = .faulted r ∧ r.pc = s.pc ∧ r.word = some (encode i) ∧ t.pc = s.pc

/-- The return of 40_control_flow.md; the sentinel -1 and the order of the steps are the spec's decisions D3
and D5. -/
def Obligations.ReturnPopsTheTopSlot : Prop :=
  ∀ s : State, 0 ≤ s.sp →
    decode 0x00EE#16 = .ok .ret ∧
    ∃ t, exec .ret s = .next t ∧ t.sp = s.sp - 1 ∧
      (∀ k : Fin 16, (k.val : Int) = s.sp → t.pc = s.stack[k]) ∧
      (∀ k : Fin 16, t.stack[k] = s.stack[k]) ∧ Unchanged s t noReg [.stack]

/-- The call of 40_control_flow.md, sp incremented before the push (decisions D3 and D5). -/
def Obligations.CallPushesTheNextAddress : Prop :=
  ∀ (s : State) (nnn : Addr12), s.sp < 15 →
    decode (0x2#4 ++ nnn) = .ok (.call nnn) ∧
    ∃ t, exec (.call nnn) s = .next t ∧ t.pc.toNat = nnn.toNat ∧ t.sp = s.sp + 1 ∧
      (∀ k : Fin 16, t.stack[k] = if (k.val : Int) = s.sp + 1 then s.pc + 2 else s.stack[k]) ∧
      Unchanged s t noReg [.stack]

/-- Overflow and underflow of 40_control_flow.md with the records of 60_exceptions.md section 1 (decisions D6,
D7, D8). -/
def Obligations.FullAndEmptyStacksFault : Prop :=
  ∀ (s : State) (nnn : Addr12),
    (s.sp = 15 → ∃ t, exec (.call nnn) s = .next t ∧
      t.faultOut = some ⟨.stackOverflow, s.pc, some (0x2#4 ++ nnn), s.pc.toNat⟩ ∧
      FaultCause.stackOverflow.code = 4 ∧ t.pc = s.pc ∧ Unchanged s t noReg [.run]) ∧
    (s.sp = -1 → ∃ t, exec .ret s = .next t ∧
      t.faultOut = some ⟨.stackUnderflow, s.pc, some 0x00EE, s.pc.toNat⟩ ∧
      FaultCause.stackUnderflow.code = 5 ∧ t.pc = s.pc ∧ Unchanged s t noReg [.run])

/-- The round trip of 40_control_flow.md section on call and return (derived there), as two steps of the
machine. -/
def Obligations.CallThenReturnComesBack : Prop :=
  ∀ (s : State) (nnn : Addr12), s.run = .running → s.pc.toNat + 2 ≤ 4096 →
    s.wordAtPc = 0x2#4 ++ nnn → s.sp < 15 → nnn.toNat + 2 ≤ 4096 →
    s.readMem nnn.toNat ++ s.readMem (nnn.toNat + 1) = 0x00EE#16 →
    ∃ u, core.run 2 s = .next u ∧ u.pc = s.pc + 2 ∧ u.sp = s.sp ∧
      (∀ k : Fin 16, u.stack[k] = if (k.val : Int) = s.sp + 1 then s.pc + 2 else s.stack[k]) ∧
      Unchanged s u noReg [.stack]

/-- Rule R80. An odd target is taken like any other; a jump to itself leaves the state as it was; a target of
0xFFF faults at the next fetch. -/
def Obligations.JumpSetsPc : Prop :=
  ∀ (s : State) (nnn : Addr12),
    decode (0x1#4 ++ nnn) = .ok (.jp nnn) ∧
    ∃ t, exec (.jp nnn) s = .next t ∧ t.pc.toNat = nnn.toNat ∧ Unchanged s t noReg [] ∧
      (nnn.toNat = s.pc.toNat → t = s) ∧
      (nnn.toNat = 0xFFF → s.run = .running → ∃ u, step t = .next u ∧
        u.faultOut = some ⟨.fetchOutOfRange, 0xFFF, none, 0xFFF⟩)

/-- Rules R82 and R83: pc is 4 past the instruction when the condition holds and 2 past it otherwise. The skipped
word is not read: the step is the same whatever memory holds. Where pc then lies past memory, the next fetch faults. -/
def Obligations.SkipImmediateOnEqualAndNotEqual : Prop :=
  ∀ (s : State) (x : Nibble) (kk : Byte),
    decode (0x3#4 ++ x ++ kk) = .ok (.seImm x kk) ∧ decode (0x4#4 ++ x ++ kk) = .ok (.sneImm x kk) ∧
    ∀ i : Instr, i = .seImm x kk ∨ i = .sneImm x kk → ∃ t, exec i s = .next t ∧
      (i = .seImm x kk → t.pc = if s.readV x = kk then s.pc + 4 else s.pc + 2) ∧
      (i = .sneImm x kk → t.pc = if s.readV x ≠ kk then s.pc + 4 else s.pc + 2) ∧
      Unchanged s t noReg [] ∧
      (∀ m, exec i { s with mem := m } = .next { t with mem := m }) ∧
      (s.run = .running → 0xFFF ≤ t.pc.toNat → ∃ u, step t = .next u ∧
        u.faultOut = some ⟨.fetchOutOfRange, t.pc, none, t.pc.toNat⟩)

/-- The register skips of 40_control_flow.md; that a low nibble other than 0 is unrecognized is the spec's
decision D19. -/
def Obligations.SkipRegisterOnEqualAndNotEqual : Prop :=
  ∀ (s : State) (x y : Nibble),
    decode (0x5#4 ++ x ++ y ++ 0x0#4) = .ok (.seReg x y) ∧
    decode (0x9#4 ++ x ++ y ++ 0x0#4) = .ok (.sneReg x y) ∧
    (∃ t, exec (.seReg x y) s = .next t ∧
      t.pc = (if s.readV x = s.readV y then s.pc + 4 else s.pc + 2) ∧ Unchanged s t noReg []) ∧
    (∃ t, exec (.sneReg x y) s = .next t ∧
      t.pc = (if s.readV x ≠ s.readV y then s.pc + 4 else s.pc + 2) ∧ Unchanged s t noReg [])

/-- The jump with offset of 40_control_flow.md; that the sum is not reduced modulo 4096 is the spec's decision
D10. -/
def Obligations.JumpWithOffsetAddsV0Exactly : Prop :=
  ∀ (s : State) (nnn : Addr12),
    decode (0xB#4 ++ nnn) = .ok (.jpV0 nnn) ∧
    ∃ t, exec (.jpV0 nnn) s = .next t ∧ t.pc.toNat = nnn.toNat + (s.readV 0).toNat ∧
      Unchanged s t noReg []

/-- Rules R91, R92 and R93: the value of Vx, and no other register (VF only when x = F). -/
def Obligations.LoadAddAndCopyWriteOneRegister : Prop :=
  ∀ (s : State) (x y : Nibble) (kk : Byte),
    decode (0x6#4 ++ x ++ kk) = .ok (.ldImm x kk) ∧ decode (0x7#4 ++ x ++ kk) = .ok (.addImm x kk) ∧
    decode (0x8#4 ++ x ++ y ++ 0x0#4) = .ok (.ldReg x y) ∧
    (∃ t, exec (.ldImm x kk) s = .next t ∧ t.readV x = kk ∧ t.pc = s.pc + 2 ∧
      Unchanged s t (onlyReg x) []) ∧
    (∃ t, exec (.addImm x kk) s = .next t ∧
      (t.readV x).toNat = ((s.readV x).toNat + kk.toNat) % 256 ∧ t.pc = s.pc + 2 ∧
      Unchanged s t (onlyReg x) []) ∧
    (∃ t, exec (.ldReg x y) s = .next t ∧ t.readV x = s.readV y ∧ t.pc = s.pc + 2 ∧
      Unchanged s t (onlyReg x) [])

/-- The three logic operations of 41_alu.md; that VF is not reset is the spec's decision D16. -/
def Obligations.LogicOperationsWorkBitByBit : Prop :=
  ∀ (s : State) (x y : Nibble),
    decode (0x8#4 ++ x ++ y ++ 0x1#4) = .ok (.orReg x y) ∧
    decode (0x8#4 ++ x ++ y ++ 0x2#4) = .ok (.andReg x y) ∧
    decode (0x8#4 ++ x ++ y ++ 0x3#4) = .ok (.xorReg x y) ∧
    (∃ t, exec (.orReg x y) s = .next t ∧ t.pc = s.pc + 2 ∧ Unchanged s t (onlyReg x) [] ∧
      ∀ b < 8, (t.readV x).getLsbD b = ((s.readV x).getLsbD b || (s.readV y).getLsbD b)) ∧
    (∃ t, exec (.andReg x y) s = .next t ∧ t.pc = s.pc + 2 ∧ Unchanged s t (onlyReg x) [] ∧
      ∀ b < 8, (t.readV x).getLsbD b = ((s.readV x).getLsbD b && (s.readV y).getLsbD b)) ∧
    (∃ t, exec (.xorReg x y) s = .next t ∧ t.pc = s.pc + 2 ∧ Unchanged s t (onlyReg x) [] ∧
      ∀ b < 8, (t.readV x).getLsbD b = ((s.readV x).getLsbD b ^^ (s.readV y).getLsbD b))

/-- The addition of 41_alu.md; that the flag is written last, so that x = F leaves the flag, is the spec's
decision D14. -/
def Obligations.AddSetsCarryLast : Prop :=
  ∀ (s : State) (x y : Nibble),
    decode (0x8#4 ++ x ++ y ++ 0x4#4) = .ok (.addReg x y) ∧
    ∃ t, exec (.addReg x y) s = .next t ∧ t.pc = s.pc + 2 ∧ Unchanged s t (regAndFlag x) [] ∧
      t.readV 15 = (if (s.readV x).toNat + (s.readV y).toNat > 255 then 1 else 0) ∧
      (x ≠ 15 → (t.readV x).toNat = ((s.readV x).toNat + (s.readV y).toNat) % 256)

/-- The subtractions of 41_alu.md, strict as 90_conflicts.md C10 and decision D15 say; the flag last (D14). -/
def Obligations.SubtractionsSetTheStrictFlagLast : Prop :=
  ∀ (s : State) (x y : Nibble),
    decode (0x8#4 ++ x ++ y ++ 0x5#4) = .ok (.sub x y) ∧
    decode (0x8#4 ++ x ++ y ++ 0x7#4) = .ok (.subn x y) ∧
    (∃ t, exec (.sub x y) s = .next t ∧ t.pc = s.pc + 2 ∧ Unchanged s t (regAndFlag x) [] ∧
      t.readV 15 = (if (s.readV x).toNat > (s.readV y).toNat then 1 else 0) ∧
      (x ≠ 15 → ((t.readV x).toNat : Int) = ((s.readV x).toNat - (s.readV y).toNat : Int) % 256)) ∧
    (∃ t, exec (.subn x y) s = .next t ∧ t.pc = s.pc + 2 ∧ Unchanged s t (regAndFlag x) [] ∧
      t.readV 15 = (if (s.readV y).toNat > (s.readV x).toNat then 1 else 0) ∧
      (x ≠ 15 → ((t.readV x).toNat : Int) = ((s.readV y).toNat - (s.readV x).toNat : Int) % 256))

/-- The shifts of 41_alu.md for either value of the open parameter SHIFT_SOURCE (D13, log entry 3); the flag
last (D14). -/
def Obligations.ShiftsMoveOneBitOutIntoVF : Prop :=
  ∀ (s : State) (x y : Nibble) (a : Byte),
    (Config.shiftSource = .vx → a = s.readV x) → (Config.shiftSource = .vy → a = s.readV y) →
    decode (0x8#4 ++ x ++ y ++ 0x6#4) = .ok (.shr x y) ∧
    decode (0x8#4 ++ x ++ y ++ 0xE#4) = .ok (.shl x y) ∧
    (∃ t, exec (.shr x y) s = .next t ∧ t.pc = s.pc + 2 ∧ Unchanged s t (regAndFlag x) [] ∧
      (t.readV 15).toNat = a.toNat % 2 ∧ (x ≠ 15 → (t.readV x).toNat = a.toNat / 2)) ∧
    (∃ t, exec (.shl x y) s = .next t ∧ t.pc = s.pc + 2 ∧ Unchanged s t (regAndFlag x) [] ∧
      (t.readV 15).toNat = a.toNat / 128 ∧ (x ≠ 15 → (t.readV x).toNat = a.toNat * 2 % 256))

/-- The random instruction of 41_alu.md: the byte is the spec's free input (D26), here Config.randomByte at the
model's counter, of which nothing is known (log entry 4); the statement holds for every value of both. -/
def Obligations.RandomIsTheFreeByteUnderTheMask : Prop :=
  ∀ (s : State) (x : Nibble) (kk : Byte),
    decode (0xC#4 ++ x ++ kk) = .ok (.rnd x kk) ∧
    ∃ t, exec (.rnd x kk) s = .next t ∧ t.readV x = Config.randomByte s.draws &&& kk ∧
      t.draws = s.draws + 1 ∧ t.pc = s.pc + 2 ∧ Unchanged s t (onlyReg x) [.draws]

/-- Rules R104 and R106: exact values, Vx not masked, no base added. -/
def Obligations.LoadIAndGlyphAddressSetI : Prop :=
  ∀ (s : State) (x : Nibble) (nnn : Addr12),
    decode (0xA#4 ++ nnn) = .ok (.ldI nnn) ∧ decode (0xF#4 ++ x ++ 0x29#8) = .ok (.ldF x) ∧
    (∃ t, exec (.ldI nnn) s = .next t ∧ t.i.toNat = nnn.toNat ∧ t.pc = s.pc + 2 ∧
      Unchanged s t noReg [.i]) ∧
    (∃ t, exec (.ldF x) s = .next t ∧ t.i.toNat = (s.readV x).toNat * 5 ∧ t.pc = s.pc + 2 ∧
      Unchanged s t noReg [.i])

/-- The addition to I of 42_index_memory.md; the wrap at 2^16 is the spec's decision D12. -/
def Obligations.AddToIWrapsAtSixteenBits : Prop :=
  ∀ (s : State) (x : Nibble),
    decode (0xF#4 ++ x ++ 0x1E#8) = .ok (.addI x) ∧
    ∃ t, exec (.addI x) s = .next t ∧ t.i.toNat = (s.i.toNat + (s.readV x).toNat) % 65536 ∧
      t.pc = s.pc + 2 ∧ Unchanged s t noReg [.i]

/-- The decimal conversion of 42_index_memory.md when all three bytes lie in memory; I is unchanged (D17). -/
def Obligations.BcdStoresThreeDigits : Prop :=
  ∀ (s : State) (x : Nibble), s.i.toNat + 3 ≤ 4096 →
    decode (0xF#4 ++ x ++ 0x33#8) = .ok (.ldB x) ∧
    ∃ t, exec (.ldB x) s = .next t ∧ t.pc = s.pc + 2 ∧
      (t.readMem s.i.toNat).toNat = (s.readV x).toNat / 100 ∧
      (t.readMem (s.i.toNat + 1)).toNat = (s.readV x).toNat / 10 % 10 ∧
      (t.readMem (s.i.toNat + 2)).toNat = (s.readV x).toNat % 10 ∧
      (∀ a, (∀ k < 3, a ≠ s.i.toNat + k) → t.readMem a = s.readMem a) ∧
      Unchanged s t noReg [.mem]

/-- The register block store of 42_index_memory.md when every byte lies in memory; I is unchanged (D17). -/
def Obligations.BlockStoreWritesV0ThroughVx : Prop :=
  ∀ (s : State) (x : Nibble), s.i.toNat + x.toNat + 1 ≤ 4096 →
    decode (0xF#4 ++ x ++ 0x55#8) = .ok (.ldMemVx x) ∧
    ∃ t, exec (.ldMemVx x) s = .next t ∧ t.pc = s.pc + 2 ∧
      (∀ k : Nibble, k.toNat ≤ x.toNat → t.readMem (s.i.toNat + k.toNat) = s.readV k) ∧
      (∀ a, (∀ k : Nibble, k.toNat ≤ x.toNat → a ≠ s.i.toNat + k.toNat) → t.readMem a = s.readMem a) ∧
      Unchanged s t noReg [.mem]

/-- The register block load of 42_index_memory.md when every byte lies in memory; I is unchanged (D17). -/
def Obligations.BlockLoadReadsV0ThroughVx : Prop :=
  ∀ (s : State) (x : Nibble), s.i.toNat + x.toNat + 1 ≤ 4096 →
    decode (0xF#4 ++ x ++ 0x65#8) = .ok (.ldVxMem x) ∧
    ∃ t, exec (.ldVxMem x) s = .next t ∧ t.pc = s.pc + 2 ∧
      (∀ k : Nibble, k.toNat ≤ x.toNat → t.readV k = s.readMem (s.i.toNat + k.toNat)) ∧
      Unchanged s t (regsThrough x) []

/-- The worked example E9, for every x: whatever happens to the registers in between, a load from the same I
and the memory the store left gives the stored values back. -/
def Obligations.StoreThenLoadRecoversTheRegisters : Prop :=
  ∀ (s t u : State) (x : Nibble), s.i.toNat + x.toNat + 1 ≤ 4096 →
    exec (.ldMemVx x) s = .next t → u.i = s.i → (∀ a, u.readMem a = t.readMem a) →
    ∃ w, exec (.ldVxMem x) u = .next w ∧ w.i = s.i ∧
      ∀ k : Nibble, k.toNat ≤ x.toNat → w.readV k = s.readV k

/-- The range faults of 42_index_memory.md and 43_display.md: every byte is checked first, nothing is written,
and the record carries the lowest address outside memory (decisions D7, D8, D11). -/
def Obligations.TransfersPastMemoryFaultPrecisely : Prop :=
  ∀ (s : State) (x y n : Nibble),
    (4096 < s.i.toNat + 3 → ∃ t, exec (.ldB x) s = .next t ∧
      t.faultOut = some ⟨.writeOutOfRange, s.pc, some (0xF#4 ++ x ++ 0x33#8),
        if s.i.toNat < 4096 then 4096 else s.i.toNat⟩ ∧
      FaultCause.writeOutOfRange.code = 3 ∧ t.pc = s.pc ∧ Unchanged s t noReg [.run]) ∧
    (4096 < s.i.toNat + x.toNat + 1 → ∃ t, exec (.ldMemVx x) s = .next t ∧
      t.faultOut = some ⟨.writeOutOfRange, s.pc, some (0xF#4 ++ x ++ 0x55#8),
        if s.i.toNat < 4096 then 4096 else s.i.toNat⟩ ∧
      t.pc = s.pc ∧ Unchanged s t noReg [.run]) ∧
    (4096 < s.i.toNat + x.toNat + 1 → ∃ t, exec (.ldVxMem x) s = .next t ∧
      t.faultOut = some ⟨.readOutOfRange, s.pc, some (0xF#4 ++ x ++ 0x65#8),
        if s.i.toNat < 4096 then 4096 else s.i.toNat⟩ ∧
      FaultCause.readOutOfRange.code = 2 ∧ t.pc = s.pc ∧ Unchanged s t noReg [.run]) ∧
    (n ≠ 0 → 4096 < s.i.toNat + n.toNat → ∃ t, exec (.drw x y n) s = .next t ∧
      t.faultOut = some ⟨.readOutOfRange, s.pc, some (0xD#4 ++ x ++ y ++ n),
        if s.i.toNat < 4096 then 4096 else s.i.toNat⟩ ∧
      t.pc = s.pc ∧ Unchanged s t noReg [.run])

/-- Self-modifying code of 20_memory.md section 6 (decision D29): a block store of at least two bytes at the
next pc is fetched by the very next step. -/
def Obligations.StoredInstructionIsFetchedNext : Prop :=
  ∀ (s : State) (x : Nibble) (j : Instr), s.run = .running → s.pc.toNat + 4 ≤ 4096 →
    s.i = s.pc + 2 → 1 ≤ x.toNat → s.i.toNat + x.toNat + 1 ≤ 4096 →
    decode (s.readV 0 ++ s.readV 1) = .ok j →
    ∃ t, exec (.ldMemVx x) s = .next t ∧ step t = exec j t

/-- Rules R110 and R115: every row zero; VF, memory and the rest as before. -/
def Obligations.ClearDarkensEveryRow : Prop :=
  ∀ s : State,
    decode 0x00E0#16 = .ok .cls ∧
    ∃ t, exec .cls s = .next t ∧ (∀ r : Fin 32, t.fb[r] = 0) ∧ t.pc = s.pc + 2 ∧
      Unchanged s t noReg [.fb] ∧ ((∀ r : Fin 32, s.fb[r] = 0) → ∀ r : Fin 32, t.fb[r] = s.fb[r])

/-- The draw of 43_display.md at the level of row words: row k goes to row (y + k) mod 32 rotated right by
x mod 64; n = 0 draws nothing and clears VF (D18); coordinates are read before VF is written (D14). -/
def Obligations.DrawXorsTheSpriteRows : Prop :=
  ∀ (s : State) (x y n : Nibble), (n = 0 ∨ s.i.toNat + n.toNat ≤ 4096) →
    decode (0xD#4 ++ x ++ y ++ n) = .ok (.drw x y n) ∧
    ∃ t, exec (.drw x y n) s = .next t ∧ t.pc = s.pc + 2 ∧
      (∀ r : Fin 32,
        t.fb[r] = if (r.val + 256 - (s.readV y).toNat) % 32 < n.toNat then
            s.fb[r] ^^^ (((s.readMem (s.i.toNat + (r.val + 256 - (s.readV y).toNat) % 32)).setWidth 64
              <<< 56).rotateRight ((s.readV x).toNat % 64) : Row)
          else s.fb[r]) ∧
      (t.readV 15 = 1 ↔ ∃ k < n.toNat, ∃ r : Fin 32, r.val = ((s.readV y).toNat + k) % 32 ∧
        s.fb[r] &&& (((s.readMem (s.i.toNat + k)).setWidth 64 <<< 56).rotateRight
          ((s.readV x).toNat % 64) : Row) ≠ 0) ∧
      (t.readV 15 = 0 ∨ t.readV 15 = 1) ∧ Unchanged s t (onlyReg 15) [.fb]

/-- The pixel reading of the draw: bit 7 - j of sprite byte k is column (Vx + j) mod 64 of row (Vy + k) mod 32
(vertical and horizontal wraparound of 43_display.md section 1, the latter derived there). -/
def Obligations.DrawFlipsExactlyTheSpritePixels : Prop :=
  ∀ (s : State) (x y n : Nibble), (n = 0 ∨ s.i.toNat + n.toNat ≤ 4096) →
    ∃ t, exec (.drw x y n) s = .next t ∧ ∀ (c : Fin 64) (r : Fin 32),
      ((∃ k < n.toNat, spriteLights (s.readV x) (s.readV y) k (s.readMem (s.i.toNat + k)) c r) →
        pixel t.fb c r = !pixel s.fb c r) ∧
      ((¬ ∃ k < n.toNat, spriteLights (s.readV x) (s.readV y) k (s.readMem (s.i.toNat + k)) c r) →
        pixel t.fb c r = pixel s.fb c r)

/-- The collision bit of rule R112, which rule R116 puts into VF, for a draw that does not fault: comparing the
framebuffer before and after, and equally the rows before the XOR. Lighting a dark pixel is no collision. Of
rule R116 it says what VF holds (written last, the spec's decision D14) where the range check passes (D11). -/
def Obligations.CollisionMeansALitPixelTurnedOff : Prop :=
  ∀ (s t : State) (x y n : Nibble), (n = 0 ∨ s.i.toNat + n.toNat ≤ 4096) →
    exec (.drw x y n) s = .next t →
    (t.readV 15 = 1 ↔ ∃ (c : Fin 64) (r : Fin 32), pixel s.fb c r = true ∧ pixel t.fb c r = false) ∧
    (t.readV 15 = 0 ↔ ¬ ∃ (c : Fin 64) (r : Fin 32), pixel s.fb c r = true ∧ pixel t.fb c r = false) ∧
    (t.readV 15 = 1 ↔ ∃ k < n.toNat,
      s.fb[spriteTarget (s.readV y) k] &&& spriteRow (s.readMem (s.i.toNat + k)) (s.readV x) ≠ 0)

/-- The three timer instructions of 44_timers_keypad.md; which selector does which is the spec's decision D34. -/
def Obligations.TimerInstructionsMoveOneByte : Prop :=
  ∀ (s : State) (x : Nibble),
    decode (0xF#4 ++ x ++ 0x07#8) = .ok (.ldVxDt x) ∧ decode (0xF#4 ++ x ++ 0x15#8) = .ok (.ldDtVx x) ∧
    decode (0xF#4 ++ x ++ 0x18#8) = .ok (.ldStVx x) ∧
    (∃ t, exec (.ldVxDt x) s = .next t ∧ t.readV x = s.dt ∧ t.pc = s.pc + 2 ∧
      Unchanged s t (onlyReg x) []) ∧
    (∃ t, exec (.ldDtVx x) s = .next t ∧ t.dt = s.readV x ∧ t.pc = s.pc + 2 ∧
      Unchanged s t noReg [.dt]) ∧
    (∃ t, exec (.ldStVx x) s = .next t ∧ t.st = s.readV x ∧ t.pc = s.pc + 2 ∧
      Unchanged s t noReg [.st])

/-- The key wait of 44_timers_keypad.md as an explicit state, with pc already advanced (decision D25). -/
def Obligations.KeyWaitSuspendsPastTheInstruction : Prop :=
  ∀ (s : State) (x : Nibble),
    decode (0xF#4 ++ x ++ 0x0A#8) = .ok (.ldVxK x) ∧
    ∃ t, exec (.ldVxK x) s = .next t ∧ t.run = .awaitKey x ∧ t.awaiting = true ∧ t.pc = s.pc + 2 ∧
      Unchanged s t noReg [.run]

/-- The key event of 44_timers_keypad.md (decisions D24 and D25). -/
def Obligations.KeyEventEndsOnlyAWait : Prop :=
  ∀ (s : State) (k : Nibble),
    (∀ x, s.run = .awaitKey x →
      ((s.key k).readV x).toNat = k.toNat ∧ (s.key k).run = .running ∧ (s.key k).pc = s.pc ∧
      Unchanged s (s.key k) (onlyReg x) [.run]) ∧
    (s.awaiting = false → s.key k = s)

/-- What survives the wait (60_exceptions.md sections 4 and 5; decisions D22 and D25): everything but DT, ST and
the register the key writes; execution goes on after the instruction. actAll is the model's, log entry 8. -/
def Obligations.WaitWithTicksResumesAfterTheKey : Prop :=
  ∀ (s w : State) (x k : Nibble) (n : Nat), exec (.ldVxK x) s = .next w →
    ∃ u, actAll (List.replicate n .tick ++ [.key k]) w = .next u ∧
      (u.readV x).toNat = k.toNat ∧ u.run = .running ∧ u.pc = s.pc + 2 ∧
      u.dt.toNat = s.dt.toNat - n ∧ u.st.toNat = s.st.toNat - n ∧
      Unchanged s u (onlyReg x) [.dt, .st, .run]

/-- The tick of 60_exceptions.md section 4; the stop at zero and the rest in Faulted are the spec's decision D22.
actAll is the model's, log entry 8. -/
def Obligations.TicksCountDownToZero : Prop :=
  ∀ (s : State) (n : Nat),
    ∃ t, actAll (List.replicate n .tick) s = .next t ∧ t.pc = s.pc ∧ Unchanged s t noReg [.dt, .st] ∧
      (s.isFaulted = false → t.dt.toNat = s.dt.toNat - n ∧ t.st.toNat = s.st.toNat - n) ∧
      (s.isFaulted = true → t = s)

/-- The end of a run of 70_reset_and_hazards.md section 5, the spec's own convention (D37). actAll is the model's, log
entry 8. -/
def Obligations.FinalStateStaysPut : Prop :=
  ∀ s : State, s.isFinal →
    (∀ n, core.run n s = .next s) ∧
    ∀ as : List Action, ∃ t, actAll as s = .next t ∧ t.isFinal ∧ t.pc = s.pc ∧
      t.dt.toNat ≤ s.dt.toNat ∧ t.st.toNat ≤ s.st.toNat ∧ Unchanged s t noReg [.dt, .st]

/-- Rule R57, byte by byte, for every image of at most 3584 bytes, the empty one included; and rule R58 for
every longer one: the error carries the length and there is no state. -/
def Obligations.LoadBuildsFontImageAndZerosOrRejects : Prop :=
  ∀ (l : Launch) (image : List Byte),
    (image.length ≤ 3584 → ∃ s, load l image = .ok s ∧
      (∀ k (h : k < image.length), s.readMem (0x200 + k) = image[k]) ∧
      (∀ a < 80, s.readMem a = Config.font a) ∧
      (∀ a, 80 ≤ a → a < 0x200 → s.readMem a = 0) ∧
      (∀ a, 0x200 + image.length ≤ a → a < 4096 → s.readMem a = 0)) ∧
    (image.length > 3584 → load l image = .error (.imageTooLarge image.length))

/-- The values after reset of 10_state.md section 10 (decisions D2, D3, D4): the launch inputs are kept as they
are given. State.reset is such a machine; its zero launch inputs are the model's choice (log entry 1). -/
def Obligations.LoadedMachineStartsAt0x200 : Prop :=
  (∀ (l : Launch) (image : List Byte) (s : State), load l image = .ok s →
    s.pc.toNat = 0x200 ∧ s.sp = -1 ∧ s.run = .running ∧ (∀ k : Fin 16, s.stack[k] = 0) ∧
    (∀ r : Fin 32, s.fb[r] = 0) ∧ s.v = l.v ∧ s.i = l.i ∧ s.dt = l.dt ∧ s.st = l.st) ∧
  load .zero [] = .ok State.reset
end

