-- ==== Sys2Proof/Laws/Decode.lean ====
section
/-! SUPPORT. The fields of a word written in a format of rule R60, and a word put together again from
its fields; byte order; how a row of the opcode table matches. -/

namespace Sys2Proof

/-! ## Fields of a word by its format -/

section fields
variable (f x y n : Nibble) (kk : Byte) (nnn : Addr12) (w : Word)

@[simp] theorem fieldFamily_nnn : fieldFamily (f ++ nnn) = f := by
  ext i hi; simp [fieldFamily]; grind
@[simp] theorem fieldNNN_nnn : fieldNNN (f ++ nnn) = nnn := by
  ext i hi; simp [fieldNNN]; grind

@[simp] theorem fieldFamily_xkk : fieldFamily (f ++ x ++ kk) = f := by
  ext i hi; simp [fieldFamily]; grind
@[simp] theorem fieldX_xkk : fieldX (f ++ x ++ kk) = x := by
  ext i hi; simp [fieldX]; grind
@[simp] theorem fieldKK_xkk : fieldKK (f ++ x ++ kk) = kk := by
  ext i hi; simp [fieldKK]; grind

@[simp] theorem fieldFamily_xyn : fieldFamily (f ++ x ++ y ++ n) = f := by
  ext i hi; simp [fieldFamily]; grind
@[simp] theorem fieldX_xyn : fieldX (f ++ x ++ y ++ n) = x := by
  ext i hi; simp [fieldX]; grind
@[simp] theorem fieldY_xyn : fieldY (f ++ x ++ y ++ n) = y := by
  ext i hi; simp [fieldY]; grind
@[simp] theorem fieldN_xyn : fieldN (f ++ x ++ y ++ n) = n := by
  ext i hi; simp [fieldN]; grind

/-! ## A word put together from its fields -/

theorem family_append_nnn : fieldFamily w ++ fieldNNN w = w := by
  ext i hi; simp [fieldFamily, fieldNNN]; grind
theorem family_append_xkk : fieldFamily w ++ fieldX w ++ fieldKK w = w := by
  ext i hi; simp [fieldFamily, fieldX, fieldKK]; grind
theorem family_append_xyn : fieldFamily w ++ fieldX w ++ fieldY w ++ fieldN w = w := by
  ext i hi; simp [fieldFamily, fieldX, fieldY, fieldN]; grind

/-! ## The fields as numbers -/

theorem toNat_fieldFamily : (fieldFamily w).toNat = w.toNat / 4096 := by
  have := w.isLt
  simp [fieldFamily, BitVec.extractLsb'_toNat, Nat.shiftRight_eq_div_pow]; omega
theorem toNat_fieldN : (fieldN w).toNat = w.toNat % 16 := by
  simp [fieldN, BitVec.extractLsb'_toNat]
theorem toNat_fieldKK : (fieldKK w).toNat = w.toNat % 256 := by
  simp [fieldKK, BitVec.extractLsb'_toNat]

/-! ## Byte order (rule R41) -/

@[simp] theorem wordOfBytes_high_low : wordOfBytes (highByte w) (lowByte w) = w := by
  ext i hi; simp [wordOfBytes, highByte, lowByte]; grind
@[simp] theorem highByte_wordOfBytes (hi lo : Byte) : highByte (wordOfBytes hi lo) = hi := by
  ext i h; simp [wordOfBytes, highByte]; grind
@[simp] theorem lowByte_wordOfBytes (hi lo : Byte) : lowByte (wordOfBytes hi lo) = lo := by
  ext i h; simp [wordOfBytes, lowByte]; grind

/-- The bytes of a word, decoded, are the word decoded. -/
theorem decodeBytes_high_low (rest : List Byte) :
    decodeBytes (highByte w :: lowByte w :: rest) = some (decode w, rest) := by
  simp [decodeBytes]

end fields

/-! ## Rows of the opcode table -/

/-- The bits a mask of the family keeps. -/
theorem and_familyMask (w : Word) : w &&& 0xF000#16 = fieldFamily w ++ 0#12 := by
  ext i hi; rw [BitVec.getElem_append]; simp [fieldFamily]
  interval_cases i <;> simp

/-- The bits a mask of the family and the low nibble keeps. -/
theorem and_familyNibbleMask (w : Word) : w &&& 0xF00F#16 = fieldFamily w ++ 0#8 ++ fieldN w := by
  ext i hi; rw [BitVec.getElem_append]; simp [fieldFamily, fieldN]
  interval_cases i <;> simp <;> (rw [BitVec.getElem_append]; simp)

/-- The bits a mask of the family and the low byte keeps. -/
theorem and_familyByteMask (w : Word) : w &&& 0xF0FF#16 = fieldFamily w ++ 0#4 ++ fieldKK w := by
  ext i hi; rw [BitVec.getElem_append]; simp [fieldFamily, fieldKK]
  interval_cases i <;> simp <;> (rw [BitVec.getElem_append]; simp)

/-- When a word matches a row. -/
theorem OpcodeRow.matches_iff (r : OpcodeRow) (w : Word) :
    r.matches w = true ↔ w &&& r.mask = r.pattern := by simp [OpcodeRow.matches]

/-- The low byte of a word whose low nibble is its last four bits. -/
theorem fieldKK_xyn (f x y n : Nibble) : fieldKK (f ++ x ++ y ++ n) = y ++ n := by
  ext i hi; simp [fieldKK]; grind

/-! ## The operands of the shifts (rule R77) -/

theorem shiftOps_zero (x : Nibble) : shiftOps x 0 = [regOp x] := rfl

theorem shiftOps_of_ne {x y : Nibble} (h : y ≠ 0) : shiftOps x y = [regOp x, regOp y] := if_neg h

end Sys2Proof
end

