-- ==== Sys2Proof/Laws/Memory.lean ====
section
/-! SUPPORT. What the memory operations do: reads after writes, and the canonical form kept. -/

namespace Sys2Proof.Machine

/-! ## Reads after writes -/

theorem Memory.read_forget (m : Memory) (a c : Nat) :
    (m.forget a).read c = if c = a then Memory.background c else m.read c := by
  induction m with
  | nil => simp [Memory.forget, Memory.read]
  | cons e m ih =>
    obtain ⟨d, v⟩ := e
    by_cases had : a = d
    · subst had
      rw [Memory.forget, if_pos rfl, ih]
      by_cases hca : c = a <;> simp [Memory.read, hca]
    · by_cases hcd : c = d
      · subst hcd
        simp [Memory.forget, Memory.read, had, Ne.symm had]
      · simp [Memory.forget, Memory.read, had, hcd, ih]

theorem Memory.read_insert_of_unlisted (m : Memory) (a c : Nat) (b : Byte) :
    ((m.forget a).insert a b).read c = if c = a then b else m.read c := by
  induction m with
  | nil => simp [Memory.forget, Memory.insert, Memory.read]
  | cons e m ih =>
    obtain ⟨d, v⟩ := e
    by_cases had : a = d
    · subst had
      rw [Memory.forget, if_pos rfl, ih]
      by_cases hca : c = a <;> simp [Memory.read, hca]
    · by_cases hlt : a < d
      · by_cases hcd : c = d
        · subst hcd
          simp [Memory.forget, Memory.insert, Memory.read, had, hlt, Ne.symm had]
        · by_cases hca : c = a <;>
            simp [Memory.forget, Memory.insert, Memory.read, Memory.read_forget, had, hlt, hcd, hca]
      · by_cases hcd : c = d
        · subst hcd
          simp [Memory.forget, Memory.insert, Memory.read, had, hlt, Ne.symm had]
        · simp [Memory.forget, Memory.insert, Memory.read, had, hlt, hcd, ih]

/-- A read after a write: the byte written at its address, the old byte everywhere else. -/
theorem Memory.read_write (m : Memory) (a c : Nat) (b : Byte) :
    (m.write a b).read c = if c = a then b else m.read c := by
  by_cases hb : b = Memory.background a
  · by_cases hca : c = a <;> simp [Memory.write, hb, Memory.read_forget, hca]
  · simp [Memory.write, hb, Memory.read_insert_of_unlisted]

/-- An address outside the bytes written reads as before. -/
theorem Memory.read_writeBytes_outside (bs : List Byte) (m : Memory) (a c : Nat)
    (h : c < a ∨ a + bs.length ≤ c) : (m.writeBytes a bs).read c = m.read c := by
  induction bs generalizing m a with
  | nil => rfl
  | cons b bs ih =>
    simp only [List.length_cons] at h
    rw [Memory.writeBytes, ih _ _ (by omega), Memory.read_write, if_neg (by omega)]

/-- The k-th byte written is read back at the k-th address. -/
theorem Memory.read_writeBytes_inside (bs : List Byte) (m : Memory) (a k : Nat) (h : k < bs.length) :
    (m.writeBytes a bs).read (a + k) = bs[k] := by
  induction bs generalizing m a k with
  | nil => simp at h
  | cons b bs ih =>
    cases k with
    | zero =>
      rw [Memory.writeBytes, Memory.read_writeBytes_outside _ _ _ _ (by omega), Memory.read_write]
      simp
    | succ k =>
      have := ih (m.write a b) (a + 1) k (by simpa using h)
      rw [Memory.writeBytes, show a + (k + 1) = a + 1 + k by omega, this]
      rfl

/-- Reading n bytes gives n bytes. -/
@[simp] theorem Memory.length_readBytes (m : Memory) (a n : Nat) : (m.readBytes a n).length = n := by
  induction n generalizing a with
  | zero => rfl
  | succ n ih => simp [Memory.readBytes, ih]

/-- The k-th of the bytes read is the byte at the k-th address. -/
theorem Memory.getElem_readBytes (m : Memory) (a n k : Nat) (h : k < (m.readBytes a n).length) :
    (m.readBytes a n)[k] = m.read (a + k) := by
  induction n generalizing a k with
  | zero => simp at h
  | succ n ih =>
    cases k with
    | zero => rfl
    | succ k =>
      simp only [Memory.readBytes, List.getElem_cons_succ]
      rw [ih (a + 1) k, show a + 1 + k = a + (k + 1) by omega]

/-! ## The canonical form -/

theorem Memory.wfFrom_cons {lo a : Nat} {b : Byte} {m : Memory} :
    Memory.wfFrom lo ((a, b) :: m) = true ↔
      lo ≤ a ∧ a < Config.memSize ∧ b ≠ Memory.background a ∧ Memory.wfFrom (a + 1) m = true := by
  simp [Memory.wfFrom, and_assoc]

theorem Memory.wfFrom_mono {lo lo' : Nat} (h : lo' ≤ lo) {m : Memory} (hm : Memory.wfFrom lo m = true) :
    Memory.wfFrom lo' m = true := by
  cases m with
  | nil => rfl
  | cons e m =>
    rw [Memory.wfFrom_cons] at hm ⊢
    exact ⟨h.trans hm.1, hm.2⟩

theorem Memory.wfFrom_forget {lo : Nat} {m : Memory} (a : Nat) (hm : Memory.wfFrom lo m = true) :
    Memory.wfFrom lo (m.forget a) = true := by
  induction m generalizing lo with
  | nil => rfl
  | cons e m ih =>
    obtain ⟨c, d⟩ := e
    rw [Memory.wfFrom_cons] at hm
    by_cases h : a = c
    · simpa [Memory.forget, h] using ih (Memory.wfFrom_mono (by omega) hm.2.2.2)
    · rw [Memory.forget, if_neg h, Memory.wfFrom_cons]
      exact ⟨hm.1, hm.2.1, hm.2.2.1, ih hm.2.2.2⟩

theorem Memory.wfFrom_insert {lo a : Nat} {b : Byte} {m : Memory} (hlo : lo ≤ a)
    (ha : a < Config.memSize) (hb : b ≠ Memory.background a) (hm : Memory.wfFrom lo m = true) :
    Memory.wfFrom lo ((m.forget a).insert a b) = true := by
  induction m generalizing lo with
  | nil => exact Memory.wfFrom_cons.2 ⟨hlo, ha, hb, rfl⟩
  | cons e m ih =>
    obtain ⟨c, d⟩ := e
    have hc := Memory.wfFrom_cons.1 hm
    by_cases h : a = c
    · simpa [Memory.forget, h] using ih hlo (Memory.wfFrom_mono (by omega) hc.2.2.2)
    · by_cases hlt : a < c
      · have hrest := Memory.wfFrom_forget a hc.2.2.2
        rw [Memory.forget, if_neg h, Memory.insert, if_pos hlt, Memory.wfFrom_cons, Memory.wfFrom_cons]
        exact ⟨hlo, ha, hb, hlt, hc.2.1, hc.2.2.1, hrest⟩
      · have hrest := ih (lo := c + 1) (by omega) hc.2.2.2
        rw [Memory.forget, if_neg h, Memory.insert, if_neg hlt, Memory.wfFrom_cons]
        exact ⟨hc.1, hc.2.1, hc.2.2.1, hrest⟩

/-- A write in range keeps the canonical form. -/
theorem Memory.wf_write {m : Memory} (hm : m.wf = true) {a : Nat} (ha : a < Config.memSize) (b : Byte) :
    (m.write a b).wf = true := by
  unfold Memory.write
  split
  · exact Memory.wfFrom_forget a hm
  · exact Memory.wfFrom_insert (Nat.zero_le a) ha ‹_› hm

/-- Writing bytes that all lie in range keeps the canonical form. -/
theorem Memory.wf_writeBytes {m : Memory} (hm : m.wf = true) {a : Nat} {bs : List Byte}
    (h : a + bs.length ≤ Config.memSize) : (m.writeBytes a bs).wf = true := by
  induction bs generalizing m a with
  | nil => exact hm
  | cons b bs ih =>
    simp only [List.length_cons] at h
    exact ih (Memory.wf_write hm (by omega) b) (by omega)

/-- Below the first listed address every byte reads as unlisted. -/
theorem Memory.read_below {lo : Nat} {m : Memory} (hm : Memory.wfFrom lo m = true) {c : Nat} (hc : c < lo) :
    m.read c = Memory.background c := by
  induction m generalizing lo with
  | nil => rfl
  | cons e m ih =>
    obtain ⟨a, b⟩ := e
    rw [Memory.wfFrom_cons] at hm
    rw [Memory.read, if_neg (by omega)]
    exact ih hm.2.2.2 (by omega)

/-- An address past the end of memory reads as unlisted in a canonical memory. -/
theorem Memory.read_past_end {lo : Nat} {m : Memory} (hm : Memory.wfFrom lo m = true) {c : Nat}
    (hc : Config.memSize ≤ c) : m.read c = Memory.background c := by
  induction m generalizing lo with
  | nil => rfl
  | cons e m ih =>
    obtain ⟨a, b⟩ := e
    rw [Memory.wfFrom_cons] at hm
    rw [Memory.read, if_neg (by omega)]
    exact ih hm.2.2.2

end Sys2Proof.Machine
end

