-- ==== Sys2Proof/Laws/State.lean ====
section
/-! SUPPORT. One lemma per field per update of the state, each true by rfl, so that no later proof
unfolds a record update. -/

namespace Sys2Proof.Machine

variable (s : State)

/-! ### writeV -/

@[simp] theorem State.writeV_v (x : Nibble) (b : Byte) : (s.writeV x b).v = s.v.set x.toNat b x.isLt := rfl
@[simp] theorem State.writeV_i (x : Nibble) (b : Byte) : (s.writeV x b).i = s.i := rfl
@[simp] theorem State.writeV_pc (x : Nibble) (b : Byte) : (s.writeV x b).pc = s.pc := rfl
@[simp] theorem State.writeV_depth (x : Nibble) (b : Byte) : (s.writeV x b).depth = s.depth := rfl
@[simp] theorem State.writeV_stack (x : Nibble) (b : Byte) : (s.writeV x b).stack = s.stack := rfl
@[simp] theorem State.writeV_dt (x : Nibble) (b : Byte) : (s.writeV x b).dt = s.dt := rfl
@[simp] theorem State.writeV_st (x : Nibble) (b : Byte) : (s.writeV x b).st = s.st := rfl
@[simp] theorem State.writeV_mem (x : Nibble) (b : Byte) : (s.writeV x b).mem = s.mem := rfl
@[simp] theorem State.writeV_fb (x : Nibble) (b : Byte) : (s.writeV x b).fb = s.fb := rfl
@[simp] theorem State.writeV_run (x : Nibble) (b : Byte) : (s.writeV x b).run = s.run := rfl
@[simp] theorem State.writeV_draws (x : Nibble) (b : Byte) : (s.writeV x b).draws = s.draws := rfl
@[simp] theorem State.writeV_readMem (x : Nibble) (b : Byte) (k : Nat) : (s.writeV x b).readMem k = s.readMem k := rfl
@[simp] theorem State.writeV_sp (x : Nibble) (b : Byte) : (s.writeV x b).sp = s.sp := rfl

/-! ### setI -/

@[simp] theorem State.setI_v (a : Word) : (s.setI a).v = s.v := rfl
@[simp] theorem State.setI_i (a : Word) : (s.setI a).i = a := rfl
@[simp] theorem State.setI_pc (a : Word) : (s.setI a).pc = s.pc := rfl
@[simp] theorem State.setI_depth (a : Word) : (s.setI a).depth = s.depth := rfl
@[simp] theorem State.setI_stack (a : Word) : (s.setI a).stack = s.stack := rfl
@[simp] theorem State.setI_dt (a : Word) : (s.setI a).dt = s.dt := rfl
@[simp] theorem State.setI_st (a : Word) : (s.setI a).st = s.st := rfl
@[simp] theorem State.setI_mem (a : Word) : (s.setI a).mem = s.mem := rfl
@[simp] theorem State.setI_fb (a : Word) : (s.setI a).fb = s.fb := rfl
@[simp] theorem State.setI_run (a : Word) : (s.setI a).run = s.run := rfl
@[simp] theorem State.setI_draws (a : Word) : (s.setI a).draws = s.draws := rfl
@[simp] theorem State.setI_readV (a : Word) (r : Nibble) : (s.setI a).readV r = s.readV r := rfl
@[simp] theorem State.setI_readMem (a : Word) (k : Nat) : (s.setI a).readMem k = s.readMem k := rfl
@[simp] theorem State.setI_sp (a : Word) : (s.setI a).sp = s.sp := rfl

/-! ### setDT -/

@[simp] theorem State.setDT_v (b : Byte) : (s.setDT b).v = s.v := rfl
@[simp] theorem State.setDT_i (b : Byte) : (s.setDT b).i = s.i := rfl
@[simp] theorem State.setDT_pc (b : Byte) : (s.setDT b).pc = s.pc := rfl
@[simp] theorem State.setDT_depth (b : Byte) : (s.setDT b).depth = s.depth := rfl
@[simp] theorem State.setDT_stack (b : Byte) : (s.setDT b).stack = s.stack := rfl
@[simp] theorem State.setDT_dt (b : Byte) : (s.setDT b).dt = b := rfl
@[simp] theorem State.setDT_st (b : Byte) : (s.setDT b).st = s.st := rfl
@[simp] theorem State.setDT_mem (b : Byte) : (s.setDT b).mem = s.mem := rfl
@[simp] theorem State.setDT_fb (b : Byte) : (s.setDT b).fb = s.fb := rfl
@[simp] theorem State.setDT_run (b : Byte) : (s.setDT b).run = s.run := rfl
@[simp] theorem State.setDT_draws (b : Byte) : (s.setDT b).draws = s.draws := rfl
@[simp] theorem State.setDT_readV (b : Byte) (r : Nibble) : (s.setDT b).readV r = s.readV r := rfl
@[simp] theorem State.setDT_readMem (b : Byte) (k : Nat) : (s.setDT b).readMem k = s.readMem k := rfl
@[simp] theorem State.setDT_sp (b : Byte) : (s.setDT b).sp = s.sp := rfl

/-! ### setST -/

@[simp] theorem State.setST_v (b : Byte) : (s.setST b).v = s.v := rfl
@[simp] theorem State.setST_i (b : Byte) : (s.setST b).i = s.i := rfl
@[simp] theorem State.setST_pc (b : Byte) : (s.setST b).pc = s.pc := rfl
@[simp] theorem State.setST_depth (b : Byte) : (s.setST b).depth = s.depth := rfl
@[simp] theorem State.setST_stack (b : Byte) : (s.setST b).stack = s.stack := rfl
@[simp] theorem State.setST_dt (b : Byte) : (s.setST b).dt = s.dt := rfl
@[simp] theorem State.setST_st (b : Byte) : (s.setST b).st = b := rfl
@[simp] theorem State.setST_mem (b : Byte) : (s.setST b).mem = s.mem := rfl
@[simp] theorem State.setST_fb (b : Byte) : (s.setST b).fb = s.fb := rfl
@[simp] theorem State.setST_run (b : Byte) : (s.setST b).run = s.run := rfl
@[simp] theorem State.setST_draws (b : Byte) : (s.setST b).draws = s.draws := rfl
@[simp] theorem State.setST_readV (b : Byte) (r : Nibble) : (s.setST b).readV r = s.readV r := rfl
@[simp] theorem State.setST_readMem (b : Byte) (k : Nat) : (s.setST b).readMem k = s.readMem k := rfl
@[simp] theorem State.setST_sp (b : Byte) : (s.setST b).sp = s.sp := rfl

/-! ### setPc -/

@[simp] theorem State.setPc_v (a : Word) : (s.setPc a).v = s.v := rfl
@[simp] theorem State.setPc_i (a : Word) : (s.setPc a).i = s.i := rfl
@[simp] theorem State.setPc_pc (a : Word) : (s.setPc a).pc = a := rfl
@[simp] theorem State.setPc_depth (a : Word) : (s.setPc a).depth = s.depth := rfl
@[simp] theorem State.setPc_stack (a : Word) : (s.setPc a).stack = s.stack := rfl
@[simp] theorem State.setPc_dt (a : Word) : (s.setPc a).dt = s.dt := rfl
@[simp] theorem State.setPc_st (a : Word) : (s.setPc a).st = s.st := rfl
@[simp] theorem State.setPc_mem (a : Word) : (s.setPc a).mem = s.mem := rfl
@[simp] theorem State.setPc_fb (a : Word) : (s.setPc a).fb = s.fb := rfl
@[simp] theorem State.setPc_run (a : Word) : (s.setPc a).run = s.run := rfl
@[simp] theorem State.setPc_draws (a : Word) : (s.setPc a).draws = s.draws := rfl
@[simp] theorem State.setPc_readV (a : Word) (r : Nibble) : (s.setPc a).readV r = s.readV r := rfl
@[simp] theorem State.setPc_readMem (a : Word) (k : Nat) : (s.setPc a).readMem k = s.readMem k := rfl
@[simp] theorem State.setPc_sp (a : Word) : (s.setPc a).sp = s.sp := rfl

/-! ### advance -/

@[simp] theorem State.advance_v : s.advance.v = s.v := rfl
@[simp] theorem State.advance_i : s.advance.i = s.i := rfl
@[simp] theorem State.advance_pc : s.advance.pc = s.pc + 2 := rfl
@[simp] theorem State.advance_depth : s.advance.depth = s.depth := rfl
@[simp] theorem State.advance_stack : s.advance.stack = s.stack := rfl
@[simp] theorem State.advance_dt : s.advance.dt = s.dt := rfl
@[simp] theorem State.advance_st : s.advance.st = s.st := rfl
@[simp] theorem State.advance_mem : s.advance.mem = s.mem := rfl
@[simp] theorem State.advance_fb : s.advance.fb = s.fb := rfl
@[simp] theorem State.advance_run : s.advance.run = s.run := rfl
@[simp] theorem State.advance_draws : s.advance.draws = s.draws := rfl
@[simp] theorem State.advance_readV (r : Nibble) : s.advance.readV r = s.readV r := rfl
@[simp] theorem State.advance_readMem (k : Nat) : s.advance.readMem k = s.readMem k := rfl
@[simp] theorem State.advance_sp : s.advance.sp = s.sp := rfl

/-! ### storeBytes -/

@[simp] theorem State.storeBytes_v (a : Nat) (bs : List Byte) : (s.storeBytes a bs).v = s.v := rfl
@[simp] theorem State.storeBytes_i (a : Nat) (bs : List Byte) : (s.storeBytes a bs).i = s.i := rfl
@[simp] theorem State.storeBytes_pc (a : Nat) (bs : List Byte) : (s.storeBytes a bs).pc = s.pc := rfl
@[simp] theorem State.storeBytes_depth (a : Nat) (bs : List Byte) : (s.storeBytes a bs).depth = s.depth := rfl
@[simp] theorem State.storeBytes_stack (a : Nat) (bs : List Byte) : (s.storeBytes a bs).stack = s.stack := rfl
@[simp] theorem State.storeBytes_dt (a : Nat) (bs : List Byte) : (s.storeBytes a bs).dt = s.dt := rfl
@[simp] theorem State.storeBytes_st (a : Nat) (bs : List Byte) : (s.storeBytes a bs).st = s.st := rfl
@[simp] theorem State.storeBytes_mem (a : Nat) (bs : List Byte) : (s.storeBytes a bs).mem = s.mem.writeBytes a bs := rfl
@[simp] theorem State.storeBytes_fb (a : Nat) (bs : List Byte) : (s.storeBytes a bs).fb = s.fb := rfl
@[simp] theorem State.storeBytes_run (a : Nat) (bs : List Byte) : (s.storeBytes a bs).run = s.run := rfl
@[simp] theorem State.storeBytes_draws (a : Nat) (bs : List Byte) : (s.storeBytes a bs).draws = s.draws := rfl
@[simp] theorem State.storeBytes_readV (a : Nat) (bs : List Byte) (r : Nibble) : (s.storeBytes a bs).readV r = s.readV r := rfl
@[simp] theorem State.storeBytes_sp (a : Nat) (bs : List Byte) : (s.storeBytes a bs).sp = s.sp := rfl

/-! ### nextDraw -/

@[simp] theorem State.nextDraw_v : s.nextDraw.v = s.v := rfl
@[simp] theorem State.nextDraw_i : s.nextDraw.i = s.i := rfl
@[simp] theorem State.nextDraw_pc : s.nextDraw.pc = s.pc := rfl
@[simp] theorem State.nextDraw_depth : s.nextDraw.depth = s.depth := rfl
@[simp] theorem State.nextDraw_stack : s.nextDraw.stack = s.stack := rfl
@[simp] theorem State.nextDraw_dt : s.nextDraw.dt = s.dt := rfl
@[simp] theorem State.nextDraw_st : s.nextDraw.st = s.st := rfl
@[simp] theorem State.nextDraw_mem : s.nextDraw.mem = s.mem := rfl
@[simp] theorem State.nextDraw_fb : s.nextDraw.fb = s.fb := rfl
@[simp] theorem State.nextDraw_run : s.nextDraw.run = s.run := rfl
@[simp] theorem State.nextDraw_draws : s.nextDraw.draws = s.draws + 1 := rfl
@[simp] theorem State.nextDraw_readV (r : Nibble) : s.nextDraw.readV r = s.readV r := rfl
@[simp] theorem State.nextDraw_readMem (k : Nat) : s.nextDraw.readMem k = s.readMem k := rfl
@[simp] theorem State.nextDraw_sp : s.nextDraw.sp = s.sp := rfl

/-! ### clearFb -/

@[simp] theorem State.clearFb_v : s.clearFb.v = s.v := rfl
@[simp] theorem State.clearFb_i : s.clearFb.i = s.i := rfl
@[simp] theorem State.clearFb_pc : s.clearFb.pc = s.pc := rfl
@[simp] theorem State.clearFb_depth : s.clearFb.depth = s.depth := rfl
@[simp] theorem State.clearFb_stack : s.clearFb.stack = s.stack := rfl
@[simp] theorem State.clearFb_dt : s.clearFb.dt = s.dt := rfl
@[simp] theorem State.clearFb_st : s.clearFb.st = s.st := rfl
@[simp] theorem State.clearFb_mem : s.clearFb.mem = s.mem := rfl
@[simp] theorem State.clearFb_fb : s.clearFb.fb = .replicate 32 0 := rfl
@[simp] theorem State.clearFb_run : s.clearFb.run = s.run := rfl
@[simp] theorem State.clearFb_draws : s.clearFb.draws = s.draws := rfl
@[simp] theorem State.clearFb_readV (r : Nibble) : s.clearFb.readV r = s.readV r := rfl
@[simp] theorem State.clearFb_readMem (k : Nat) : s.clearFb.readMem k = s.readMem k := rfl
@[simp] theorem State.clearFb_sp : s.clearFb.sp = s.sp := rfl

/-! ### loadRegs -/

@[simp] theorem State.loadRegs_i (x : Nibble) (a : Nat) : (s.loadRegs x a).i = s.i := rfl
@[simp] theorem State.loadRegs_pc (x : Nibble) (a : Nat) : (s.loadRegs x a).pc = s.pc := rfl
@[simp] theorem State.loadRegs_depth (x : Nibble) (a : Nat) : (s.loadRegs x a).depth = s.depth := rfl
@[simp] theorem State.loadRegs_stack (x : Nibble) (a : Nat) : (s.loadRegs x a).stack = s.stack := rfl
@[simp] theorem State.loadRegs_dt (x : Nibble) (a : Nat) : (s.loadRegs x a).dt = s.dt := rfl
@[simp] theorem State.loadRegs_st (x : Nibble) (a : Nat) : (s.loadRegs x a).st = s.st := rfl
@[simp] theorem State.loadRegs_mem (x : Nibble) (a : Nat) : (s.loadRegs x a).mem = s.mem := rfl
@[simp] theorem State.loadRegs_fb (x : Nibble) (a : Nat) : (s.loadRegs x a).fb = s.fb := rfl
@[simp] theorem State.loadRegs_run (x : Nibble) (a : Nat) : (s.loadRegs x a).run = s.run := rfl
@[simp] theorem State.loadRegs_draws (x : Nibble) (a : Nat) : (s.loadRegs x a).draws = s.draws := rfl
@[simp] theorem State.loadRegs_readMem (x : Nibble) (a : Nat) (k : Nat) : (s.loadRegs x a).readMem k = s.readMem k := rfl
@[simp] theorem State.loadRegs_sp (x : Nibble) (a : Nat) : (s.loadRegs x a).sp = s.sp := rfl

/-! ### takeFault -/

@[simp] theorem State.takeFault_v (c : FaultCause) (w : Option Word) (a : Nat) : (s.takeFault c w a).v = s.v := rfl
@[simp] theorem State.takeFault_i (c : FaultCause) (w : Option Word) (a : Nat) : (s.takeFault c w a).i = s.i := rfl
@[simp] theorem State.takeFault_pc (c : FaultCause) (w : Option Word) (a : Nat) : (s.takeFault c w a).pc = s.pc := rfl
@[simp] theorem State.takeFault_depth (c : FaultCause) (w : Option Word) (a : Nat) : (s.takeFault c w a).depth = s.depth := rfl
@[simp] theorem State.takeFault_stack (c : FaultCause) (w : Option Word) (a : Nat) : (s.takeFault c w a).stack = s.stack := rfl
@[simp] theorem State.takeFault_dt (c : FaultCause) (w : Option Word) (a : Nat) : (s.takeFault c w a).dt = s.dt := rfl
@[simp] theorem State.takeFault_st (c : FaultCause) (w : Option Word) (a : Nat) : (s.takeFault c w a).st = s.st := rfl
@[simp] theorem State.takeFault_mem (c : FaultCause) (w : Option Word) (a : Nat) : (s.takeFault c w a).mem = s.mem := rfl
@[simp] theorem State.takeFault_fb (c : FaultCause) (w : Option Word) (a : Nat) : (s.takeFault c w a).fb = s.fb := rfl
@[simp] theorem State.takeFault_run (c : FaultCause) (w : Option Word) (a : Nat) : (s.takeFault c w a).run = .faulted ⟨c, s.pc, w, a⟩ := rfl
@[simp] theorem State.takeFault_draws (c : FaultCause) (w : Option Word) (a : Nat) : (s.takeFault c w a).draws = s.draws := rfl
@[simp] theorem State.takeFault_readV (c : FaultCause) (w : Option Word) (a : Nat) (r : Nibble) : (s.takeFault c w a).readV r = s.readV r := rfl
@[simp] theorem State.takeFault_readMem (c : FaultCause) (w : Option Word) (a : Nat) (k : Nat) : (s.takeFault c w a).readMem k = s.readMem k := rfl
@[simp] theorem State.takeFault_sp (c : FaultCause) (w : Option Word) (a : Nat) : (s.takeFault c w a).sp = s.sp := rfl

/-! ### awaitKey -/

@[simp] theorem State.awaitKey_v (x : Nibble) : (s.awaitKey x).v = s.v := rfl
@[simp] theorem State.awaitKey_i (x : Nibble) : (s.awaitKey x).i = s.i := rfl
@[simp] theorem State.awaitKey_pc (x : Nibble) : (s.awaitKey x).pc = s.pc := rfl
@[simp] theorem State.awaitKey_depth (x : Nibble) : (s.awaitKey x).depth = s.depth := rfl
@[simp] theorem State.awaitKey_stack (x : Nibble) : (s.awaitKey x).stack = s.stack := rfl
@[simp] theorem State.awaitKey_dt (x : Nibble) : (s.awaitKey x).dt = s.dt := rfl
@[simp] theorem State.awaitKey_st (x : Nibble) : (s.awaitKey x).st = s.st := rfl
@[simp] theorem State.awaitKey_mem (x : Nibble) : (s.awaitKey x).mem = s.mem := rfl
@[simp] theorem State.awaitKey_fb (x : Nibble) : (s.awaitKey x).fb = s.fb := rfl
@[simp] theorem State.awaitKey_run (x : Nibble) : (s.awaitKey x).run = .awaitKey x := rfl
@[simp] theorem State.awaitKey_draws (x : Nibble) : (s.awaitKey x).draws = s.draws := rfl
@[simp] theorem State.awaitKey_readV (x : Nibble) (r : Nibble) : (s.awaitKey x).readV r = s.readV r := rfl
@[simp] theorem State.awaitKey_readMem (x : Nibble) (k : Nat) : (s.awaitKey x).readMem k = s.readMem k := rfl
@[simp] theorem State.awaitKey_sp (x : Nibble) : (s.awaitKey x).sp = s.sp := rfl

/-! ### resume -/

@[simp] theorem State.resume_v : s.resume.v = s.v := rfl
@[simp] theorem State.resume_i : s.resume.i = s.i := rfl
@[simp] theorem State.resume_pc : s.resume.pc = s.pc := rfl
@[simp] theorem State.resume_depth : s.resume.depth = s.depth := rfl
@[simp] theorem State.resume_stack : s.resume.stack = s.stack := rfl
@[simp] theorem State.resume_dt : s.resume.dt = s.dt := rfl
@[simp] theorem State.resume_st : s.resume.st = s.st := rfl
@[simp] theorem State.resume_mem : s.resume.mem = s.mem := rfl
@[simp] theorem State.resume_fb : s.resume.fb = s.fb := rfl
@[simp] theorem State.resume_run : s.resume.run = .running := rfl
@[simp] theorem State.resume_draws : s.resume.draws = s.draws := rfl
@[simp] theorem State.resume_readV (r : Nibble) : s.resume.readV r = s.readV r := rfl
@[simp] theorem State.resume_readMem (k : Nat) : s.resume.readMem k = s.readMem k := rfl
@[simp] theorem State.resume_sp : s.resume.sp = s.sp := rfl

/-! ### skipIf -/

@[simp] theorem State.skipIf_true : s.skipIf true = s.setPc (s.pc + 2) := rfl
@[simp] theorem State.skipIf_false : s.skipIf false = s := rfl
/-- A skip only writes pc. -/
theorem State.skipIf_eq_setPc (c : Bool) : s.skipIf c = s.setPc (if c then s.pc + 2 else s.pc) := by
  cases c <;> rfl
@[simp] theorem State.skipIf_v (c : Bool) : (s.skipIf c).v = s.v := by cases c <;> rfl
@[simp] theorem State.skipIf_i (c : Bool) : (s.skipIf c).i = s.i := by cases c <;> rfl
theorem State.skipIf_pc (c : Bool) : (s.skipIf c).pc = if c then s.pc + 2 else s.pc := by cases c <;> rfl
@[simp] theorem State.skipIf_depth (c : Bool) : (s.skipIf c).depth = s.depth := by cases c <;> rfl
@[simp] theorem State.skipIf_stack (c : Bool) : (s.skipIf c).stack = s.stack := by cases c <;> rfl
@[simp] theorem State.skipIf_dt (c : Bool) : (s.skipIf c).dt = s.dt := by cases c <;> rfl
@[simp] theorem State.skipIf_st (c : Bool) : (s.skipIf c).st = s.st := by cases c <;> rfl
@[simp] theorem State.skipIf_mem (c : Bool) : (s.skipIf c).mem = s.mem := by cases c <;> rfl
@[simp] theorem State.skipIf_fb (c : Bool) : (s.skipIf c).fb = s.fb := by cases c <;> rfl
@[simp] theorem State.skipIf_run (c : Bool) : (s.skipIf c).run = s.run := by cases c <;> rfl
@[simp] theorem State.skipIf_draws (c : Bool) : (s.skipIf c).draws = s.draws := by cases c <;> rfl
@[simp] theorem State.skipIf_readV (c : Bool) (r : Nibble) : (s.skipIf c).readV r = s.readV r := by cases c <;> rfl
@[simp] theorem State.skipIf_readMem (c : Bool) (k : Nat) : (s.skipIf c).readMem k = s.readMem k := by cases c <;> rfl
@[simp] theorem State.skipIf_sp (c : Bool) : (s.skipIf c).sp = s.sp := by cases c <;> rfl

/-! ### Reading a register after a write -/

/-- `V[y]` after `V[x] <- b`. -/
theorem State.readV_writeV (x y : Nibble) (b : Byte) :
    (s.writeV x b).readV y = if y = x then b else s.readV y := by
  simp [State.readV, State.writeV, Vector.getElem_set, BitVec.toNat_inj, eq_comm]

@[simp] theorem State.readV_writeV_same (x : Nibble) (b : Byte) : (s.writeV x b).readV x = b := by
  simp [State.readV_writeV]

theorem State.readV_writeV_ne {x y : Nibble} (h : y ≠ x) (b : Byte) :
    (s.writeV x b).readV y = s.readV y := by simp [State.readV_writeV, h]

/-- `V[k]` after a block load. -/
theorem State.readV_loadRegs (x k : Nibble) (a : Nat) :
    (s.loadRegs x a).readV k = if k.toNat ≤ x.toNat then s.readMem (a + k.toNat) else s.readV k := by
  simp [State.readV, State.loadRegs, State.readMem]

end Sys2Proof.Machine
end

