-- ==== Sys2Proof/Laws/Ops.lean ====
section
/-! SUPPORT. For each shared operation, what it does, said once: flags and 8-bit results, the stack,
the fetch, the block transfers, the stores through I, the draw. -/

namespace Sys2Proof.Machine

/-! ## Flags and 8-bit results (rules R25, R90) -/

theorem flagByte_eq (c : Bool) : flagByte c = if c = true then 1 else 0 := rfl

@[simp] theorem toNat_wrapAdd (a b : Byte) : (wrapAdd a b).toNat = (a.toNat + b.toNat) % 256 := by
  simp [wrapAdd]

@[simp] theorem toNat_wrapSub (a b : Byte) : (wrapSub a b).toNat = (a.toNat + 256 - b.toNat) % 256 := by
  simp [wrapSub]

@[simp] theorem toNat_shiftRight1 (a : Byte) : (shiftRight1 a).toNat = a.toNat / 2 := by
  have := a.isLt
  simp [shiftRight1]; omega

@[simp] theorem toNat_shiftLeft1 (a : Byte) : (shiftLeft1 a).toNat = a.toNat * 2 % 256 := by
  simp [shiftLeft1]

@[simp] theorem toNat_target (nnn : Addr12) : (target nnn).toNat = nnn.toNat := by
  have := nnn.isLt
  simp [target]; omega

@[simp] theorem toNat_zext16 (b : Byte) : (zext16 b).toNat = b.toNat := by
  have := b.isLt
  simp [zext16]; omega

theorem toNat_offsetTarget (nnn : Addr12) (b : Byte) :
    (offsetTarget nnn b).toNat = nnn.toNat + b.toNat := by
  have := nnn.isLt
  have := b.isLt
  rw [offsetTarget, BitVec.toNat_add, toNat_target, toNat_zext16, Nat.mod_eq_of_lt (by omega)]

theorem toNat_glyphAddress (b : Byte) : (glyphAddress b).toNat = b.toNat * 5 := by
  have := b.isLt
  rw [glyphAddress, BitVec.toNat_ofNat, Nat.mod_eq_of_lt (by simp only [Config.glyphBytes]; omega)]

/-! ## The shapes of the ALU instructions (rules R89 to R103) -/

section alu
variable (s : State) (x r : Nibble) (a b f : Byte) (k : Nat)

@[simp] theorem State.putV_i : (s.putV x b).i = s.i := rfl
@[simp] theorem State.putV_pc : (s.putV x b).pc = s.pc + 2 := rfl
@[simp] theorem State.putV_depth : (s.putV x b).depth = s.depth := rfl
@[simp] theorem State.putV_stack : (s.putV x b).stack = s.stack := rfl
@[simp] theorem State.putV_dt : (s.putV x b).dt = s.dt := rfl
@[simp] theorem State.putV_st : (s.putV x b).st = s.st := rfl
@[simp] theorem State.putV_mem : (s.putV x b).mem = s.mem := rfl
@[simp] theorem State.putV_fb : (s.putV x b).fb = s.fb := rfl
@[simp] theorem State.putV_run : (s.putV x b).run = s.run := rfl
@[simp] theorem State.putV_draws : (s.putV x b).draws = s.draws := rfl
@[simp] theorem State.putV_sp : (s.putV x b).sp = s.sp := rfl
@[simp] theorem State.putV_readMem : (s.putV x b).readMem k = s.readMem k := rfl
@[simp] theorem State.putVF_i : (s.putVF x b f).i = s.i := rfl
@[simp] theorem State.putVF_pc : (s.putVF x b f).pc = s.pc + 2 := rfl
@[simp] theorem State.putVF_depth : (s.putVF x b f).depth = s.depth := rfl
@[simp] theorem State.putVF_stack : (s.putVF x b f).stack = s.stack := rfl
@[simp] theorem State.putVF_dt : (s.putVF x b f).dt = s.dt := rfl
@[simp] theorem State.putVF_st : (s.putVF x b f).st = s.st := rfl
@[simp] theorem State.putVF_mem : (s.putVF x b f).mem = s.mem := rfl
@[simp] theorem State.putVF_fb : (s.putVF x b f).fb = s.fb := rfl
@[simp] theorem State.putVF_run : (s.putVF x b f).run = s.run := rfl
@[simp] theorem State.putVF_draws : (s.putVF x b f).draws = s.draws := rfl
@[simp] theorem State.putVF_sp : (s.putVF x b f).sp = s.sp := rfl
@[simp] theorem State.putVF_readMem : (s.putVF x b f).readMem k = s.readMem k := rfl
@[simp] theorem State.putShr_i : (s.putShr x a).i = s.i := rfl
@[simp] theorem State.putShr_pc : (s.putShr x a).pc = s.pc + 2 := rfl
@[simp] theorem State.putShr_depth : (s.putShr x a).depth = s.depth := rfl
@[simp] theorem State.putShr_stack : (s.putShr x a).stack = s.stack := rfl
@[simp] theorem State.putShr_dt : (s.putShr x a).dt = s.dt := rfl
@[simp] theorem State.putShr_st : (s.putShr x a).st = s.st := rfl
@[simp] theorem State.putShr_mem : (s.putShr x a).mem = s.mem := rfl
@[simp] theorem State.putShr_fb : (s.putShr x a).fb = s.fb := rfl
@[simp] theorem State.putShr_run : (s.putShr x a).run = s.run := rfl
@[simp] theorem State.putShr_draws : (s.putShr x a).draws = s.draws := rfl
@[simp] theorem State.putShr_sp : (s.putShr x a).sp = s.sp := rfl
@[simp] theorem State.putShr_readMem : (s.putShr x a).readMem k = s.readMem k := rfl
@[simp] theorem State.putShl_i : (s.putShl x a).i = s.i := rfl
@[simp] theorem State.putShl_pc : (s.putShl x a).pc = s.pc + 2 := rfl
@[simp] theorem State.putShl_depth : (s.putShl x a).depth = s.depth := rfl
@[simp] theorem State.putShl_stack : (s.putShl x a).stack = s.stack := rfl
@[simp] theorem State.putShl_dt : (s.putShl x a).dt = s.dt := rfl
@[simp] theorem State.putShl_st : (s.putShl x a).st = s.st := rfl
@[simp] theorem State.putShl_mem : (s.putShl x a).mem = s.mem := rfl
@[simp] theorem State.putShl_fb : (s.putShl x a).fb = s.fb := rfl
@[simp] theorem State.putShl_run : (s.putShl x a).run = s.run := rfl
@[simp] theorem State.putShl_draws : (s.putShl x a).draws = s.draws := rfl
@[simp] theorem State.putShl_sp : (s.putShl x a).sp = s.sp := rfl
@[simp] theorem State.putShl_readMem : (s.putShl x a).readMem k = s.readMem k := rfl

/-- A register after a flagless result. -/
theorem State.readV_putV : (s.putV x b).readV r = if r = x then b else s.readV r := by
  rw [State.putV, State.readV_writeV]; rfl

/-- A register after a result and a flag: the flag is written last. -/
theorem State.readV_putVF :
    (s.putVF x b f).readV r = if r = flagReg then f else if r = x then b else s.readV r := by
  rw [State.putVF, State.readV_writeV, State.readV_putV]

/-- A register after a shift right of a. -/
theorem State.readV_putShr : (s.putShr x a).readV r =
    if r = flagReg then lsbFlag a else if r = x then shiftRight1 a else s.readV r :=
  State.readV_putVF ..

/-- A register after a shift left of a. -/
theorem State.readV_putShl : (s.putShl x a).readV r =
    if r = flagReg then msbFlag a else if r = x then shiftLeft1 a else s.readV r :=
  State.readV_putVF ..

theorem toNat_lsbFlag : (lsbFlag a).toNat = a.toNat % 2 := by
  rw [lsbFlag, flagByte_eq, BitVec.getLsbD, Nat.testBit_zero]
  rcases Nat.mod_two_eq_zero_or_one a.toNat with h | h <;> simp [h]

theorem toNat_msbFlag : (msbFlag a).toNat = a.toNat / 128 := by
  have := a.isLt
  have h : a.getLsbD 7 = decide (a.toNat / 128 % 2 = 1) := by
    rw [BitVec.getLsbD, Nat.testBit_eq_decide_div_mod_eq]
  rw [msbFlag, flagByte_eq, h]
  rcases (by omega : a.toNat / 128 = 0 ∨ a.toNat / 128 = 1) with h | h <;> simp [h]

end alu

/-! ## The stack (rules R29, R79, R81) -/

theorem State.sp_eq_neg_one_iff (s : State) : s.sp = -1 ↔ s.depth.val = 0 := by
  unfold State.sp; omega

theorem State.sp_eq_fifteen_iff (s : State) : s.sp = 15 ↔ s.depth.val = 16 := by
  unfold State.sp; omega

/-- A push on a stack that is not full. -/
theorem State.push_of_lt {s : State} (h : s.depth.val < 16) (a : Word) :
    s.push a = some { s with depth := ⟨s.depth.val + 1, by omega⟩, stack := s.stack.set s.depth.val a h } :=
  dif_pos h

/-- A push on a full stack. -/
theorem State.push_of_full {s : State} (h : s.depth.val = 16) (a : Word) : s.push a = none :=
  dif_neg (by omega)

/-- A pop from a stack that is not empty. -/
theorem State.pop_of_pos {s : State} (h : 0 < s.depth.val) :
    s.pop = some (s.stack[s.depth.val - 1]'(by have := s.depth.isLt; omega),
      { s with depth := ⟨s.depth.val - 1, by have := s.depth.isLt; omega⟩ }) :=
  dif_pos h

/-- A pop from an empty stack. -/
theorem State.pop_of_zero {s : State} (h : s.depth.val = 0) : s.pop = none :=
  dif_neg (by omega)

/-! ## The fetch (rules R63, R65) -/

theorem inRange_iff (a n : Nat) : inRange a n = true ↔ a + n ≤ 4096 := by simp [inRange]

/-- A fetch in range gives the two bytes. -/
theorem State.fetchBytes_of_inRange {s : State} (h : s.pc.toNat + 2 ≤ 4096) :
    s.fetchBytes = some (s.readMem s.pc.toNat, s.readMem (s.pc.toNat + 1)) :=
  if_pos ((inRange_iff _ _).2 h)

/-- A fetch out of range gives none. -/
theorem State.fetchBytes_of_not_inRange {s : State} (h : 4096 < s.pc.toNat + 2) : s.fetchBytes = none :=
  if_neg (by rw [inRange_iff]; omega)

/-- pc past an instruction that was fetched: no wrap (rule R23). -/
theorem State.toNat_advance_pc {s : State} (h : s.pc.toNat + 2 ≤ 4096) :
    s.advance.pc.toNat = s.pc.toNat + 2 := by
  have h2 : (2 : Word).toNat = 2 := rfl
  rw [State.advance_pc, BitVec.toNat_add, h2]
  omega

/-! ## Block transfers (rules R107 to R109) -/

@[simp] theorem State.length_regsUpTo (s : State) (x : Nibble) : (s.regsUpTo x).length = x.toNat + 1 := by
  have := x.isLt
  simp [State.regsUpTo]; omega

theorem State.getElem_regsUpTo (s : State) (x k : Nibble) (h : k.toNat < (s.regsUpTo x).length) :
    (s.regsUpTo x)[k.toNat] = s.readV k := by
  simp [State.regsUpTo, State.readV]

@[simp] theorem length_bcdDigits (b : Byte) : (bcdDigits b).length = 3 := rfl

/-- A store through I with every byte in range. -/
theorem State.storeThroughI_of_inRange {s : State} {bs : List Byte} (h : s.i.toNat + bs.length ≤ 4096)
    (w : Word) : s.storeThroughI w bs = s.advance.storeBytes s.i.toNat bs :=
  if_pos ((inRange_iff _ _).2 h)

/-- A store through I with some byte out of range stores nothing and faults. -/
theorem State.storeThroughI_of_not_inRange {s : State} {bs : List Byte}
    (h : 4096 < s.i.toNat + bs.length) (w : Word) :
    s.storeThroughI w bs = s.takeFault .writeOutOfRange (some w) (max s.i.toNat 4096) :=
  if_neg (by rw [State.base, inRange_iff]; omega)

/-- Bytes stored: the k-th is read back at the k-th address. -/
theorem State.readMem_storeBytes_inside (s : State) (a : Nat) (bs : List Byte) (k : Nat)
    (h : k < bs.length) : (s.storeBytes a bs).readMem (a + k) = bs[k] :=
  Memory.read_writeBytes_inside bs s.mem a k h

/-- Bytes stored: every other address reads as before. -/
theorem State.readMem_storeBytes_outside (s : State) (a : Nat) (bs : List Byte) (c : Nat)
    (h : c < a ∨ a + bs.length ≤ c) : (s.storeBytes a bs).readMem c = s.readMem c :=
  Memory.read_writeBytes_outside bs s.mem a c h

/-! ## The sprite engine (rules R111 to R114) -/

/-- Which sprite row goes to framebuffer row r: the only k below 32 with (y + k) mod 32 = r. -/
theorem spriteTarget_eq_iff {y : Byte} {k : Nat} {r : Fin 32} :
    spriteTarget y k = r ↔ (y.toNat + k) % 32 = r.val := by
  simp [spriteTarget, Fin.ext_iff]

/-- A row of the framebuffer that no sprite row goes to is unchanged. -/
theorem drawSprite_row_miss (x y : Byte) (bs : List Byte) (k : Nat) (fb : Vector Row 32) (r : Fin 32)
    (h : ∀ j < bs.length, spriteTarget y (k + j) ≠ r) : (drawSprite x y k bs fb).1[r] = fb[r] := by
  induction bs generalizing k fb with
  | nil => rfl
  | cons b bs ih =>
    have h0 := h 0 (by simp)
    have hne : (spriteTarget y k).val ≠ r.val := fun he => h0 (Fin.ext he)
    have := ih (k + 1) (fb.set (spriteTarget y k).val (fb[spriteTarget y k] ^^^ spriteRow b x)
      (spriteTarget y k).isLt) (fun j hj => by
        have := h (j + 1) (by simpa using hj)
        rwa [show k + (j + 1) = k + 1 + j by omega] at this)
    simp only [drawSprite]
    rw [this]
    simp [Fin.getElem_fin, hne]

/-- The first sprite row changes only its own framebuffer row. -/
theorem spriteTarget_succ_ne {y : Byte} {k j : Nat} (h : j < 31) :
    (spriteTarget y k).val ≠ (spriteTarget y (k + 1 + j)).val := by
  simp only [spriteTarget]; omega

/-- A row of the framebuffer that sprite row k + j goes to is XORed with it. -/
theorem drawSprite_row_hit (x y : Byte) (bs : List Byte) (k : Nat) (fb : Vector Row 32) (j : Nat)
    (hj : j < bs.length) (hlen : bs.length ≤ 32) :
    (drawSprite x y k bs fb).1[spriteTarget y (k + j)] = fb[spriteTarget y (k + j)] ^^^ spriteRow bs[j] x := by
  induction bs generalizing k fb j with
  | nil => simp at hj
  | cons b bs ih =>
    simp only [List.length_cons] at hj hlen
    cases j with
    | zero =>
      simp only [drawSprite, Nat.add_zero, List.getElem_cons_zero]
      rw [drawSprite_row_miss _ _ _ _ _ _ fun j hj' he =>
        spriteTarget_succ_ne (y := y) (k := k) (j := j) (by omega) (congrArg Fin.val he.symm)]
      simp [Fin.getElem_fin]
    | succ j =>
      have hne := spriteTarget_succ_ne (y := y) (k := k) (j := j) (by omega)
      have := ih (k + 1) (fb.set (spriteTarget y k).val (fb[spriteTarget y k] ^^^ spriteRow b x)
        (spriteTarget y k).isLt) j (by omega) (by omega)
      simp only [drawSprite, show k + (j + 1) = k + 1 + j by omega, List.getElem_cons_succ]
      rw [this]
      simp [Fin.getElem_fin, hne]

/-- The same for a framebuffer row known by another name. -/
theorem drawSprite_row_of_target {x y : Byte} {bs : List Byte} {k j : Nat} {r : Fin 32}
    (ht : spriteTarget y (k + j) = r) (fb : Vector Row 32) (hj : j < bs.length) (hlen : bs.length ≤ 32) :
    (drawSprite x y k bs fb).1[r] = fb[r] ^^^ spriteRow bs[j] x := by
  subst ht
  exact drawSprite_row_hit x y bs k fb j hj hlen

/-- The collision bit: some sprite row met a lit pixel of its framebuffer row as it was before. -/
theorem drawSprite_collided (x y : Byte) (bs : List Byte) (k : Nat) (fb : Vector Row 32)
    (hlen : bs.length ≤ 32) :
    (drawSprite x y k bs fb).2 = true ↔
      ∃ j, ∃ h : j < bs.length, fb[spriteTarget y (k + j)] &&& spriteRow bs[j] x ≠ 0 := by
  induction bs generalizing k fb with
  | nil => simp [drawSprite]
  | cons b bs ih =>
    simp only [List.length_cons] at hlen
    simp only [drawSprite, Bool.or_eq_true, decide_eq_true_eq]
    rw [ih _ _ (by omega)]
    constructor
    · rintro (h | ⟨j, hj, h⟩)
      · exact ⟨0, by simp, by simpa using h⟩
      · have hne := spriteTarget_succ_ne (y := y) (k := k) (j := j) (by omega)
        refine ⟨j + 1, by simpa using hj, ?_⟩
        simpa [Fin.getElem_fin, hne, show k + (j + 1) = k + 1 + j by omega] using h
    · rintro ⟨j, hj, h⟩
      cases j with
      | zero => exact .inl (by simpa using h)
      | succ j =>
        simp only [List.length_cons] at hj
        have hne := spriteTarget_succ_ne (y := y) (k := k) (j := j) (by omega)
        refine .inr ⟨j, by omega, ?_⟩
        simpa [Fin.getElem_fin, hne, show k + (j + 1) = k + 1 + j by omega] using h

/-- The collision bit, for framebuffer rows known by another name. -/
theorem drawSprite_collided_row (x y : Byte) (bs : List Byte) (fb : Vector Row 32) (hlen : bs.length ≤ 32) :
    (drawSprite x y 0 bs fb).2 = true ↔
      ∃ j, ∃ h : j < bs.length, ∃ r : Fin 32, spriteTarget y j = r ∧ fb[r] &&& spriteRow bs[j] x ≠ 0 := by
  rw [drawSprite_collided x y bs 0 fb hlen]
  constructor
  · rintro ⟨j, hj, h⟩
    exact ⟨j, hj, spriteTarget y (0 + j), by rw [Nat.zero_add], h⟩
  · rintro ⟨j, hj, r, ht, h⟩
    obtain rfl : spriteTarget y (0 + j) = r := by rw [Nat.zero_add, ht]
    exact ⟨j, hj, h⟩

/-- One bit of a rotated sprite row: bit i is bit e - 56 of the byte for the source bit
e = (i + x) mod 64, when that is one of the top eight. -/
theorem getLsbD_spriteRow_bit (b x : Byte) (i : Nat) (hi : i < 64) :
    (spriteRow b x).getLsbD i =
      (decide (56 ≤ (i + x.toNat) % 64) && b.getLsbD ((i + x.toNat) % 64 - 56)) := by
  have hr : x.toNat % 64 % 64 = x.toNat % 64 := Nat.mod_mod _ _
  simp only [spriteRow, BitVec.getLsbD_rotateRight, BitVec.getLsbD_shiftLeft, BitVec.getLsbD_setWidth,
    hr, cond_eq_ite, decide_eq_true_eq]
  have hlt : (i + x.toNat) % 64 - 56 < 64 := by omega
  split
  · rw [show x.toNat % 64 + i = (i + x.toNat) % 64 by omega]
    by_cases h : 56 ≤ (i + x.toNat) % 64 <;> simp [h, hlt, Nat.mod_lt]
  · rw [show i - (64 - x.toNat % 64) = (i + x.toNat) % 64 by omega]
    by_cases h : 56 ≤ (i + x.toNat) % 64 <;> simp [h, hlt, hi, Nat.mod_lt]

/-- The pixels of one sprite row: column c is lit exactly when it is (x + j) mod 64 for a set bit
7 - j of the byte (rule R114). -/
theorem getLsbD_spriteRow (b x : Byte) (c : Fin 64) :
    (spriteRow b x).getLsbD (63 - c.val) = true ↔
      ∃ j < 8, (x.toNat + j) % 64 = c.val ∧ b.getLsbD (7 - j) = true := by
  have hc := c.isLt
  rw [getLsbD_spriteRow_bit b x _ (by omega), Bool.and_eq_true, decide_eq_true_eq]
  constructor
  · rintro ⟨h56, hb⟩
    refine ⟨63 - (63 - c.val + x.toNat) % 64, by omega, by omega, ?_⟩
    rwa [show 7 - (63 - (63 - c.val + x.toNat) % 64) = (63 - c.val + x.toNat) % 64 - 56 by omega]
  · rintro ⟨j, hj, hx, hb⟩
    have he : (63 - c.val + x.toNat) % 64 = 63 - j := by omega
    rw [he, show 63 - j - 56 = 7 - j by omega]
    exact ⟨by omega, hb⟩

end Sys2Proof.Machine
end

