-- ==== Sys2Proof/Laws/Exec.lean ====
section
/-! SUPPORT. What a meaning and a step can do, said once: the two ends of each instruction that may
fault, that no meaning stops, and the ways a step reaches a next state. -/

namespace Sys2Proof.Machine

/-! ## The instructions that may fault (rule R124) -/

/-- RET: a pop, or the underflow fault. -/
theorem execRet_cases (s : State) :
    (s.depth.val = 0 ∧ execRet s = .next (s.takeFault .stackUnderflow (some 0x00EE) s.pc.toNat)) ∨
    (∃ h : 0 < s.depth.val, execRet s = .next
      { s with depth := ⟨s.depth.val - 1, by have := s.depth.isLt; omega⟩,
               pc := s.stack[s.depth.val - 1]'(by have := s.depth.isLt; omega) }) := by
  rcases Nat.eq_zero_or_pos s.depth.val with h | h
  · exact .inl ⟨h, by simp [execRet, State.pop_of_zero h, encode]⟩
  · exact .inr ⟨h, by simp [execRet, State.pop_of_pos h, State.setPc]⟩

/-- CALL: a push, or the overflow fault. -/
theorem execCall_cases (nnn : Addr12) (s : State) :
    (s.depth.val = 16 ∧
      execCall nnn s = .next (s.takeFault .stackOverflow (some (encode (.call nnn))) s.pc.toNat)) ∨
    (∃ h : s.depth.val < 16, execCall nnn s = .next
      { s with depth := ⟨s.depth.val + 1, by omega⟩, stack := s.stack.set s.depth.val (s.pc + 2) h,
               pc := target nnn }) := by
  have := s.depth.isLt
  by_cases h : s.depth.val < 16
  · exact .inr ⟨h, by simp [execCall, State.push_of_lt h, State.setPc]⟩
  · exact .inl ⟨by omega, by simp [execCall, State.push_of_full (s := s) (by omega)]⟩

/-- DRW: a draw of bytes in range (or of none), or the read fault. -/
theorem execDrw_cases (x y n : Nibble) (s : State) :
    ((n = 0 ∨ s.i.toNat + n.toNat ≤ 4096) ∧
      execDrw x y n s = .next (s.advance.draw x y (s.mem.readBytes s.i.toNat n.toNat))) ∨
    (n ≠ 0 ∧ 4096 < s.i.toNat + n.toNat ∧
      execDrw x y n s = .next (s.takeFault .readOutOfRange (some (encode (.drw x y n))) (max s.i.toNat 4096))) := by
  by_cases h : n = 0 ∨ s.i.toNat + n.toNat ≤ 4096
  · exact .inl ⟨h, if_pos (h.imp_right (inRange_iff _ _).2)⟩
  · rw [not_or, not_le] at h
    refine .inr ⟨h.1, h.2, if_neg ?_⟩
    rw [not_or, State.base, inRange_iff]
    exact ⟨h.1, by omega⟩

/-- DRW of bytes in range, or of none. -/
theorem execDrw_of_inRange {x y n : Nibble} {s : State} (h : n = 0 ∨ s.i.toNat + n.toNat ≤ 4096) :
    execDrw x y n s = .next (s.advance.draw x y (s.mem.readBytes s.i.toNat n.toNat)) :=
  if_pos (h.imp_right (inRange_iff _ _).2)

/-- A store through I: the bytes stored, or the write fault. -/
theorem storeThroughI_cases (s : State) (w : Word) (bs : List Byte) :
    (s.i.toNat + bs.length ≤ 4096 ∧ s.storeThroughI w bs = s.advance.storeBytes s.i.toNat bs) ∨
    (4096 < s.i.toNat + bs.length ∧
      s.storeThroughI w bs = s.takeFault .writeOutOfRange (some w) (max s.i.toNat 4096)) := by
  rcases Nat.lt_or_ge 4096 (s.i.toNat + bs.length) with h | h
  · exact .inr ⟨h, State.storeThroughI_of_not_inRange h w⟩
  · exact .inl ⟨h, State.storeThroughI_of_inRange h w⟩

/-- LD Vx, [I]: a block load, or the read fault. -/
theorem execLdVxMem_cases (x : Nibble) (s : State) :
    (s.i.toNat + (x.toNat + 1) ≤ 4096 ∧ execLdVxMem x s = .next (s.advance.loadRegs x s.i.toNat)) ∨
    (4096 < s.i.toNat + (x.toNat + 1) ∧ execLdVxMem x s =
      .next (s.takeFault .readOutOfRange (some (encode (.ldVxMem x))) (max s.i.toNat 4096))) := by
  rcases Nat.lt_or_ge 4096 (s.i.toNat + (x.toNat + 1)) with h | h
  · exact .inr ⟨h, if_neg (by rw [State.base, blockLength, inRange_iff]; omega)⟩
  · exact .inl ⟨h, if_pos ((inRange_iff _ _).2 h)⟩

/-- No meaning stops: every instruction answers a next state from every state. -/
theorem exec_answers_next (i : Instr) (s : State) : ∃ t, exec i s = .next t := by
  cases i with
  | ret => rcases execRet_cases s with ⟨_, h⟩ | ⟨_, h⟩ <;> exact ⟨_, h⟩
  | call nnn => rcases execCall_cases nnn s with ⟨_, h⟩ | ⟨_, h⟩ <;> exact ⟨_, h⟩
  | drw x y n => rcases execDrw_cases x y n s with ⟨-, h⟩ | ⟨-, -, h⟩ <;> exact ⟨_, h⟩
  | ldVxMem x => rcases execLdVxMem_cases x s with ⟨-, h⟩ | ⟨-, h⟩ <;> exact ⟨_, h⟩
  | _ => exact ⟨_, rfl⟩

/-! ## The draw -/

@[simp] theorem State.draw_i (s : State) (x y : Nibble) (bs : List Byte) : (s.draw x y bs).i = s.i := rfl
@[simp] theorem State.draw_pc (s : State) (x y : Nibble) (bs : List Byte) : (s.draw x y bs).pc = s.pc := rfl
@[simp] theorem State.draw_depth (s : State) (x y : Nibble) (bs : List Byte) : (s.draw x y bs).depth = s.depth := rfl
@[simp] theorem State.draw_stack (s : State) (x y : Nibble) (bs : List Byte) : (s.draw x y bs).stack = s.stack := rfl
@[simp] theorem State.draw_sp (s : State) (x y : Nibble) (bs : List Byte) : (s.draw x y bs).sp = s.sp := rfl
@[simp] theorem State.draw_dt (s : State) (x y : Nibble) (bs : List Byte) : (s.draw x y bs).dt = s.dt := rfl
@[simp] theorem State.draw_st (s : State) (x y : Nibble) (bs : List Byte) : (s.draw x y bs).st = s.st := rfl
@[simp] theorem State.draw_mem (s : State) (x y : Nibble) (bs : List Byte) : (s.draw x y bs).mem = s.mem := rfl
@[simp] theorem State.draw_run (s : State) (x y : Nibble) (bs : List Byte) : (s.draw x y bs).run = s.run := rfl
@[simp] theorem State.draw_draws (s : State) (x y : Nibble) (bs : List Byte) : (s.draw x y bs).draws = s.draws := rfl
@[simp] theorem State.draw_readMem (s : State) (x y : Nibble) (bs : List Byte) (a : Nat) :
    (s.draw x y bs).readMem a = s.readMem a := rfl
@[simp] theorem State.draw_fb (s : State) (x y : Nibble) (bs : List Byte) :
    (s.draw x y bs).fb = (drawSprite (s.readV x) (s.readV y) 0 bs s.fb).1 := rfl
theorem State.readV_draw (s : State) (x y r : Nibble) (bs : List Byte) :
    (s.draw x y bs).readV r =
      if r = flagReg then collisionFlag (drawSprite (s.readV x) (s.readV y) 0 bs s.fb).2 else s.readV r := by
  rw [State.draw, State.readV_writeV]; rfl

/-! ## The step (rules R63, R64) -/

theorem step_of_awaitKey {s : State} {x : Nibble} (h : s.run = .awaitKey x) :
    step s = .fault (.awaitingKey x) := by simp [step, h]

theorem step_of_faulted {s : State} {r : FaultRecord} (h : s.run = .faulted r) :
    step s = .fault (.halted r) := by simp [step, h]

theorem step_of_fetch_fault {s : State} (hrun : s.run = .running) (h : 4096 < s.pc.toNat + 2) :
    step s = .next s.fetchFault := by
  simp [step, hrun, State.fetchBytes_of_not_inRange h]

/-- A step whose word was fetched and decoded. -/
theorem step_of_fetched {s : State} (hrun : s.run = .running) (h : s.pc.toNat + 2 ≤ 4096) :
    step s = match decode (wordOfBytes (s.readMem s.pc.toNat) (s.readMem (s.pc.toNat + 1))) with
      | .ok i => exec i s
      | .error _ => .next s.skipUnrecognized := by
  simp only [step, hrun, State.fetchBytes_of_inRange h] <;> rfl

/-- The ways a step reaches a next state: the fetch faults, the word is unrecognized and skipped, or
the decoded instruction is executed. -/
theorem step_next_cases {s t : State} (h : step s = .next t) :
    s.run = .running ∧
    ((4096 < s.pc.toNat + 2 ∧ t = s.fetchFault) ∨
     (s.pc.toNat + 2 ≤ 4096 ∧ t = s.skipUnrecognized ∧
        ∃ e, decode (wordOfBytes (s.readMem s.pc.toNat) (s.readMem (s.pc.toNat + 1))) = .error e) ∨
     (s.pc.toNat + 2 ≤ 4096 ∧
        ∃ i, decode (wordOfBytes (s.readMem s.pc.toNat) (s.readMem (s.pc.toNat + 1))) = .ok i ∧
          exec i s = .next t)) := by
  cases hrun : s.run with
  | awaitKey x => rw [step_of_awaitKey hrun] at h; cases h
  | faulted r => rw [step_of_faulted hrun] at h; cases h
  | running =>
    refine ⟨rfl, ?_⟩
    rcases Nat.lt_or_ge 4096 (s.pc.toNat + 2) with hpc | hpc
    · rw [step_of_fetch_fault hrun hpc] at h
      cases h
      exact .inl ⟨hpc, rfl⟩
    · rw [step_of_fetched hrun hpc] at h
      cases hd : decode (wordOfBytes (s.readMem s.pc.toNat) (s.readMem (s.pc.toNat + 1))) with
      | ok i =>
        rw [hd] at h
        exact .inr (.inr ⟨hpc, i, rfl, h⟩)
      | error e =>
        rw [hd] at h
        cases h
        exact .inr (.inl ⟨hpc, rfl, e, rfl⟩)

end Sys2Proof.Machine
end

