-- ==== Sys2Proof/Laws/Frame.lean ====
section
/-! SUPPORT. How a frame is shown: from the fields of the two states, and for each shape of register
write; frames joined; what ticks and keys do to the fields. -/

namespace Sys2Proof.Machine

/-- A frame from the fields: each is the same or is among the parts named. -/
theorem Unchanged.of_fields {s t : State} {regs : Nibble → Bool} {ps : List Part}
    (hv : ∀ r, regs r = false → t.readV r = s.readV r)
    (hi : .i ∈ ps ∨ t.i = s.i) (hk : .stack ∈ ps ∨ t.depth = s.depth ∧ t.stack = s.stack)
    (hdt : .dt ∈ ps ∨ t.dt = s.dt) (hst : .st ∈ ps ∨ t.st = s.st) (hm : .mem ∈ ps ∨ t.mem = s.mem)
    (hf : .fb ∈ ps ∨ t.fb = s.fb) (hr : .run ∈ ps ∨ t.run = s.run) (hd : .draws ∈ ps ∨ t.draws = s.draws) :
    Unchanged s t regs ps := by
  refine ⟨hv, fun p hp => ?_⟩
  cases p with
  | i => exact hi.resolve_left hp
  | stack =>
    obtain ⟨h1, h2⟩ := hk.resolve_left hp
    exact ⟨by rw [State.sp, State.sp, h1], fun k => by rw [h2]⟩
  | dt => exact hdt.resolve_left hp
  | st => exact hst.resolve_left hp
  | mem => exact fun a => by rw [State.readMem, State.readMem, hm.resolve_left hp]
  | fb => exact fun r => by rw [hf.resolve_left hp]
  | run => exact hr.resolve_left hp
  | draws => exact hd.resolve_left hp

theorem Part.same_refl (p : Part) (s : State) : p.same s s := by
  cases p <;> simp [Part.same]

theorem Part.same_trans {p : Part} {s t u : State} (h : p.same s t) (h' : p.same t u) : p.same s u := by
  cases p with
  | stack => exact ⟨h'.1.trans h.1, fun k => (h'.2 k).trans (h.2 k)⟩
  | mem => exact fun a => (h' a).trans (h a)
  | fb => exact fun r => (h' r).trans (h r)
  | _ => exact Eq.trans h' h

theorem Unchanged.refl (s : State) (regs : Nibble → Bool) (ps : List Part) : Unchanged s s regs ps :=
  ⟨fun _ _ => rfl, fun p _ => p.same_refl s⟩

/-- Two frames with the same exceptions, one after the other. -/
theorem Unchanged.trans {s t u : State} {regs : Nibble → Bool} {ps : List Part}
    (h : Unchanged s t regs ps) (h' : Unchanged t u regs ps) : Unchanged s u regs ps :=
  ⟨fun r hr => (h'.1 r hr).trans (h.1 r hr), fun p hp => Part.same_trans (h.2 p hp) (h'.2 p hp)⟩

/-! ## The registers outside a write -/

theorem onlyReg_eq_false {x r : Nibble} : onlyReg x r = false ↔ r ≠ x := by simp [onlyReg]

theorem regAndFlag_eq_false {x r : Nibble} : regAndFlag x r = false ↔ r ≠ x ∧ r ≠ flagReg := by
  rw [regAndFlag, Bool.or_eq_false_iff, beq_eq_false_iff_ne, beq_eq_false_iff_ne]

theorem regsThrough_eq_false {x r : Nibble} : regsThrough x r = false ↔ x.toNat < r.toNat := by
  simp [regsThrough]

/-! ## Ticks and keys (rules R123, R133) -/

/-- A timer tick lowers the timer by one, not below zero. -/
theorem toNat_countDown (b : Byte) : (countDown b).toNat = b.toNat - 1 := by
  unfold countDown
  split
  · simp_all
  · rename_i h
    have hne : b.toNat ≠ 0 := fun h0 => h (BitVec.eq_of_toNat_eq h0)
    have hlt := b.isLt
    have h1 : (1 : Byte).toNat = 1 := rfl
    rw [BitVec.toNat_sub, h1]
    omega

theorem State.tick_of_faulted {s : State} (h : s.isFaulted = true) : s.tick = s := if_pos h

theorem State.tick_of_not_faulted {s : State} (h : s.isFaulted = false) :
    s.tick = (s.setDT (countDown s.dt)).setST (countDown s.st) := if_neg (by simp [h])

theorem State.key_of_awaitKey {s : State} {x : Nibble} (h : s.run = .awaitKey x) (k : Nibble) :
    s.key k = (s.writeV x (k.setWidth 8)).resume := by simp [State.key, h]

theorem State.key_of_not_awaiting {s : State} (h : s.awaiting = false) (k : Nibble) : s.key k = s := by
  unfold State.key
  split
  · rename_i hr; simp [State.awaiting, hr] at h
  · rfl

/-- The run of some transitions and then some others. -/
theorem actAll_append (as bs : List Action) (s : State) :
    actAll (as ++ bs) s = match actAll as s with
      | .next t => actAll bs t
      | .fault f => .fault f
      | .refused r => .refused r := by
  induction as generalizing s with
  | nil => rfl
  | cons a as ih =>
    simp only [List.cons_append, actAll]
    cases act a s with
    | next t => exact ih t
    | fault f => rfl
    | refused r => rfl

end Sys2Proof.Machine
end

