-- ==== Sys2Proof/Laws/PerInstr.lean ====
section
/-! SUPPORT. The per-instruction families: WellFormed (the line that spells the instruction passes the
checks of rule R76's notation) and TableRow (the instruction's word matches the row of
spec/opcode_table.json that bears its mnemonic). -/

namespace Sys2Proof.Laws

/-- The instruction is well-formed. -/
def WellFormed.Statement (i : Instr) : Prop := i.wellFormed = true

/-- The instruction's word matches its row of the opcode table. -/
def TableRow.Statement (i : Instr) : Prop :=
  ∃ r ∈ opcodeTable, r.mnemonic = i.mnemonic ∧ r.matches (encode i) = true

/-- The row at a position of the table, its mnemonic, and the word under its mask. -/
theorem tableRow_at {i : Instr} (k : Nat) {m : String} {p q : Word}
    (hk : opcodeTable[k]? = some ⟨m, p, q⟩) (hm : m = i.mnemonic) (hw : encode i &&& q = p) :
    TableRow.Statement i :=
  ⟨_, List.mem_of_getElem? hk, hm, (OpcodeRow.matches_iff _ _).2 hw⟩

theorem WellFormed.cls : WellFormed.Statement .cls := rfl
theorem WellFormed.ret : WellFormed.Statement .ret := rfl
theorem WellFormed.jp (nnn : Addr12) : WellFormed.Statement (.jp nnn) := by
  have := nnn.isLt
  simp [WellFormed.Statement, Instr.wellFormed, Instr.line, Line.wellFormed]; omega
theorem WellFormed.call (nnn : Addr12) : WellFormed.Statement (.call nnn) := by
  have := nnn.isLt
  simp [WellFormed.Statement, Instr.wellFormed, Instr.line, Line.wellFormed]; omega
theorem WellFormed.seImm (x : Nibble) (kk : Byte) : WellFormed.Statement (.seImm x kk) := by
  have := x.isLt; have := kk.isLt
  simp [WellFormed.Statement, Instr.wellFormed, Instr.line, regOp, Line.wellFormed]; omega
theorem WellFormed.sneImm (x : Nibble) (kk : Byte) : WellFormed.Statement (.sneImm x kk) := by
  have := x.isLt; have := kk.isLt
  simp [WellFormed.Statement, Instr.wellFormed, Instr.line, regOp, Line.wellFormed]; omega
theorem WellFormed.seReg (x : Nibble) (y : Nibble) : WellFormed.Statement (.seReg x y) := by
  have := x.isLt; have := y.isLt
  simp [WellFormed.Statement, Instr.wellFormed, Instr.line, regOp, Line.wellFormed]; omega
theorem WellFormed.ldImm (x : Nibble) (kk : Byte) : WellFormed.Statement (.ldImm x kk) := by
  have := x.isLt; have := kk.isLt
  simp [WellFormed.Statement, Instr.wellFormed, Instr.line, regOp, Line.wellFormed]; omega
theorem WellFormed.addImm (x : Nibble) (kk : Byte) : WellFormed.Statement (.addImm x kk) := by
  have := x.isLt; have := kk.isLt
  simp [WellFormed.Statement, Instr.wellFormed, Instr.line, regOp, Line.wellFormed]; omega
theorem WellFormed.ldReg (x : Nibble) (y : Nibble) : WellFormed.Statement (.ldReg x y) := by
  have := x.isLt; have := y.isLt
  simp [WellFormed.Statement, Instr.wellFormed, Instr.line, regOp, Line.wellFormed]; omega
theorem WellFormed.orReg (x : Nibble) (y : Nibble) : WellFormed.Statement (.orReg x y) := by
  have := x.isLt; have := y.isLt
  simp [WellFormed.Statement, Instr.wellFormed, Instr.line, regOp, Line.wellFormed]; omega
theorem WellFormed.andReg (x : Nibble) (y : Nibble) : WellFormed.Statement (.andReg x y) := by
  have := x.isLt; have := y.isLt
  simp [WellFormed.Statement, Instr.wellFormed, Instr.line, regOp, Line.wellFormed]; omega
theorem WellFormed.xorReg (x : Nibble) (y : Nibble) : WellFormed.Statement (.xorReg x y) := by
  have := x.isLt; have := y.isLt
  simp [WellFormed.Statement, Instr.wellFormed, Instr.line, regOp, Line.wellFormed]; omega
theorem WellFormed.addReg (x : Nibble) (y : Nibble) : WellFormed.Statement (.addReg x y) := by
  have := x.isLt; have := y.isLt
  simp [WellFormed.Statement, Instr.wellFormed, Instr.line, regOp, Line.wellFormed]; omega
theorem WellFormed.sub (x : Nibble) (y : Nibble) : WellFormed.Statement (.sub x y) := by
  have := x.isLt; have := y.isLt
  simp [WellFormed.Statement, Instr.wellFormed, Instr.line, regOp, Line.wellFormed]; omega
theorem WellFormed.shr (x : Nibble) (y : Nibble) : WellFormed.Statement (.shr x y) := by
  have := x.isLt; have := y.isLt
  by_cases h : y = 0
  · subst h
    exact decide_eq_true x.isLt
  · simp [WellFormed.Statement, Instr.wellFormed, Instr.line, shiftOps_of_ne h, regOp, Line.wellFormed]; omega
theorem WellFormed.subn (x : Nibble) (y : Nibble) : WellFormed.Statement (.subn x y) := by
  have := x.isLt; have := y.isLt
  simp [WellFormed.Statement, Instr.wellFormed, Instr.line, regOp, Line.wellFormed]; omega
theorem WellFormed.shl (x : Nibble) (y : Nibble) : WellFormed.Statement (.shl x y) := by
  have := x.isLt; have := y.isLt
  by_cases h : y = 0
  · subst h
    exact decide_eq_true x.isLt
  · simp [WellFormed.Statement, Instr.wellFormed, Instr.line, shiftOps_of_ne h, regOp, Line.wellFormed]; omega
theorem WellFormed.sneReg (x : Nibble) (y : Nibble) : WellFormed.Statement (.sneReg x y) := by
  have := x.isLt; have := y.isLt
  simp [WellFormed.Statement, Instr.wellFormed, Instr.line, regOp, Line.wellFormed]; omega
theorem WellFormed.ldI (nnn : Addr12) : WellFormed.Statement (.ldI nnn) := by
  have := nnn.isLt
  simp [WellFormed.Statement, Instr.wellFormed, Instr.line, Line.wellFormed]; omega
theorem WellFormed.jpV0 (nnn : Addr12) : WellFormed.Statement (.jpV0 nnn) := by
  have := nnn.isLt
  simp [WellFormed.Statement, Instr.wellFormed, Instr.line, Line.wellFormed]; omega
theorem WellFormed.rnd (x : Nibble) (kk : Byte) : WellFormed.Statement (.rnd x kk) := by
  have := x.isLt; have := kk.isLt
  simp [WellFormed.Statement, Instr.wellFormed, Instr.line, regOp, Line.wellFormed]; omega
theorem WellFormed.drw (x : Nibble) (y : Nibble) (n : Nibble) : WellFormed.Statement (.drw x y n) := by
  have := x.isLt; have := y.isLt; have := n.isLt
  simp [WellFormed.Statement, Instr.wellFormed, Instr.line, regOp, Line.wellFormed]; omega
theorem WellFormed.ldVxDt (x : Nibble) : WellFormed.Statement (.ldVxDt x) := by
  have := x.isLt
  simp [WellFormed.Statement, Instr.wellFormed, Instr.line, regOp, Line.wellFormed]; omega
theorem WellFormed.ldVxK (x : Nibble) : WellFormed.Statement (.ldVxK x) := by
  have := x.isLt
  simp [WellFormed.Statement, Instr.wellFormed, Instr.line, regOp, Line.wellFormed]; omega
theorem WellFormed.ldDtVx (x : Nibble) : WellFormed.Statement (.ldDtVx x) := by
  have := x.isLt
  simp [WellFormed.Statement, Instr.wellFormed, Instr.line, regOp, Line.wellFormed]; omega
theorem WellFormed.ldStVx (x : Nibble) : WellFormed.Statement (.ldStVx x) := by
  have := x.isLt
  simp [WellFormed.Statement, Instr.wellFormed, Instr.line, regOp, Line.wellFormed]; omega
theorem WellFormed.addI (x : Nibble) : WellFormed.Statement (.addI x) := by
  have := x.isLt
  simp [WellFormed.Statement, Instr.wellFormed, Instr.line, regOp, Line.wellFormed]; omega
theorem WellFormed.ldF (x : Nibble) : WellFormed.Statement (.ldF x) := by
  have := x.isLt
  simp [WellFormed.Statement, Instr.wellFormed, Instr.line, regOp, Line.wellFormed]; omega
theorem WellFormed.ldB (x : Nibble) : WellFormed.Statement (.ldB x) := by
  have := x.isLt
  simp [WellFormed.Statement, Instr.wellFormed, Instr.line, regOp, Line.wellFormed]; omega
theorem WellFormed.ldMemVx (x : Nibble) : WellFormed.Statement (.ldMemVx x) := by
  have := x.isLt
  simp [WellFormed.Statement, Instr.wellFormed, Instr.line, regOp, Line.wellFormed]; omega
theorem WellFormed.ldVxMem (x : Nibble) : WellFormed.Statement (.ldVxMem x) := by
  have := x.isLt
  simp [WellFormed.Statement, Instr.wellFormed, Instr.line, regOp, Line.wellFormed]; omega

theorem TableRow.cls : TableRow.Statement .cls :=
  tableRow_at 0 rfl rfl rfl
theorem TableRow.ret : TableRow.Statement .ret :=
  tableRow_at 1 rfl rfl rfl
theorem TableRow.jp (nnn : Addr12) : TableRow.Statement (.jp nnn) :=
  tableRow_at 2 rfl rfl ((and_familyMask _).trans (by simp [encode]))
theorem TableRow.call (nnn : Addr12) : TableRow.Statement (.call nnn) :=
  tableRow_at 3 rfl rfl ((and_familyMask _).trans (by simp [encode]))
theorem TableRow.seImm (x : Nibble) (kk : Byte) : TableRow.Statement (.seImm x kk) :=
  tableRow_at 4 rfl rfl ((and_familyMask _).trans (by simp [encode]))
theorem TableRow.sneImm (x : Nibble) (kk : Byte) : TableRow.Statement (.sneImm x kk) :=
  tableRow_at 5 rfl rfl ((and_familyMask _).trans (by simp [encode]))
theorem TableRow.seReg (x : Nibble) (y : Nibble) : TableRow.Statement (.seReg x y) :=
  tableRow_at 6 rfl rfl ((and_familyNibbleMask _).trans (by simp [encode]))
theorem TableRow.ldImm (x : Nibble) (kk : Byte) : TableRow.Statement (.ldImm x kk) :=
  tableRow_at 7 rfl rfl ((and_familyMask _).trans (by simp [encode]))
theorem TableRow.addImm (x : Nibble) (kk : Byte) : TableRow.Statement (.addImm x kk) :=
  tableRow_at 8 rfl rfl ((and_familyMask _).trans (by simp [encode]))
theorem TableRow.ldReg (x : Nibble) (y : Nibble) : TableRow.Statement (.ldReg x y) :=
  tableRow_at 9 rfl rfl ((and_familyNibbleMask _).trans (by simp [encode]))
theorem TableRow.orReg (x : Nibble) (y : Nibble) : TableRow.Statement (.orReg x y) :=
  tableRow_at 10 rfl rfl ((and_familyNibbleMask _).trans (by simp [encode]))
theorem TableRow.andReg (x : Nibble) (y : Nibble) : TableRow.Statement (.andReg x y) :=
  tableRow_at 11 rfl rfl ((and_familyNibbleMask _).trans (by simp [encode]))
theorem TableRow.xorReg (x : Nibble) (y : Nibble) : TableRow.Statement (.xorReg x y) :=
  tableRow_at 12 rfl rfl ((and_familyNibbleMask _).trans (by simp [encode]))
theorem TableRow.addReg (x : Nibble) (y : Nibble) : TableRow.Statement (.addReg x y) :=
  tableRow_at 13 rfl rfl ((and_familyNibbleMask _).trans (by simp [encode]))
theorem TableRow.sub (x : Nibble) (y : Nibble) : TableRow.Statement (.sub x y) :=
  tableRow_at 14 rfl rfl ((and_familyNibbleMask _).trans (by simp [encode]))
theorem TableRow.shr (x : Nibble) (y : Nibble) : TableRow.Statement (.shr x y) :=
  tableRow_at 15 rfl rfl ((and_familyNibbleMask _).trans (by simp [encode]))
theorem TableRow.subn (x : Nibble) (y : Nibble) : TableRow.Statement (.subn x y) :=
  tableRow_at 16 rfl rfl ((and_familyNibbleMask _).trans (by simp [encode]))
theorem TableRow.shl (x : Nibble) (y : Nibble) : TableRow.Statement (.shl x y) :=
  tableRow_at 17 rfl rfl ((and_familyNibbleMask _).trans (by simp [encode]))
theorem TableRow.sneReg (x : Nibble) (y : Nibble) : TableRow.Statement (.sneReg x y) :=
  tableRow_at 18 rfl rfl ((and_familyNibbleMask _).trans (by simp [encode]))
theorem TableRow.ldI (nnn : Addr12) : TableRow.Statement (.ldI nnn) :=
  tableRow_at 19 rfl rfl ((and_familyMask _).trans (by simp [encode]))
theorem TableRow.jpV0 (nnn : Addr12) : TableRow.Statement (.jpV0 nnn) :=
  tableRow_at 20 rfl rfl ((and_familyMask _).trans (by simp [encode]))
theorem TableRow.rnd (x : Nibble) (kk : Byte) : TableRow.Statement (.rnd x kk) :=
  tableRow_at 21 rfl rfl ((and_familyMask _).trans (by simp [encode]))
theorem TableRow.drw (x : Nibble) (y : Nibble) (n : Nibble) : TableRow.Statement (.drw x y n) :=
  tableRow_at 22 rfl rfl ((and_familyMask _).trans (by simp [encode]))
theorem TableRow.ldVxDt (x : Nibble) : TableRow.Statement (.ldVxDt x) :=
  tableRow_at 23 rfl rfl ((and_familyByteMask _).trans (by simp [encode]))
theorem TableRow.ldVxK (x : Nibble) : TableRow.Statement (.ldVxK x) :=
  tableRow_at 24 rfl rfl ((and_familyByteMask _).trans (by simp [encode]))
theorem TableRow.ldDtVx (x : Nibble) : TableRow.Statement (.ldDtVx x) :=
  tableRow_at 25 rfl rfl ((and_familyByteMask _).trans (by simp [encode]))
theorem TableRow.ldStVx (x : Nibble) : TableRow.Statement (.ldStVx x) :=
  tableRow_at 26 rfl rfl ((and_familyByteMask _).trans (by simp [encode]))
theorem TableRow.addI (x : Nibble) : TableRow.Statement (.addI x) :=
  tableRow_at 27 rfl rfl ((and_familyByteMask _).trans (by simp [encode]))
theorem TableRow.ldF (x : Nibble) : TableRow.Statement (.ldF x) :=
  tableRow_at 28 rfl rfl ((and_familyByteMask _).trans (by simp [encode]))
theorem TableRow.ldB (x : Nibble) : TableRow.Statement (.ldB x) :=
  tableRow_at 29 rfl rfl ((and_familyByteMask _).trans (by simp [encode]))
theorem TableRow.ldMemVx (x : Nibble) : TableRow.Statement (.ldMemVx x) :=
  tableRow_at 30 rfl rfl ((and_familyByteMask _).trans (by simp [encode]))
theorem TableRow.ldVxMem (x : Nibble) : TableRow.Statement (.ldVxMem x) :=
  tableRow_at 31 rfl rfl ((and_familyByteMask _).trans (by simp [encode]))

end Sys2Proof.Laws
end

