-- ==== Sys2Proof/Tests/Slice0.lean ====
section
/-! SUPPORT. The model's own tests. Expected values come from the spec: the encodings of 30_encoding.md,
and the vectors V1 to V105 and examples E1 to E9 of 95_test_vectors.md, named in each comment. The
witnesses at the end show, for every obligation with hypotheses, a concrete state and operands that
meet them. -/

namespace Sys2Proof.Tests

open Sys2Proof Sys2Proof.Machine

/-! ## Helpers -/

/-- A field of the next state, or none where there is no next state. -/
def after {α : Type} (f : State → α) : Result → Option α
  | .next t => some (f t)
  | _ => none

/-- The reset state with some registers and I set, and a word at 0x200 to be run next. -/
def ready (w : Nat) (regs : List (Nibble × Byte)) (i : Word) : State :=
  ((regs.foldl (fun s p => s.writeV p.1 p.2) State.reset).setI i).withFetchWord 16 w

/-- The same with bytes stored from an address on. -/
def readyMem (w : Nat) (regs : List (Nibble × Byte)) (i : Word) (a : Nat) (bs : List Byte) : State :=
  (ready w regs i).storeBytes a bs

/-- One step, and two registers after it. -/
def regs2 (x y : Nibble) (s : State) : Option (Byte × Byte) := after (fun t => (t.readV x, t.readV y)) (step s)

/-! ## Well-formedness: each check refuses an ill-formed line (rules R60, R61, R76) -/

theorem smoke_register_too_large : Line.wellFormed ⟨.shr, [.reg 16]⟩ = false := by decide
theorem smoke_second_register_too_large : Line.wellFormed ⟨.add, [.reg 1, .reg 16]⟩ = false := by decide
theorem smoke_kk_too_large : Line.wellFormed ⟨.ld, [.reg 1, .num 256]⟩ = false := by decide
theorem smoke_kk_register_too_large : Line.wellFormed ⟨.rnd, [.reg 16, .num 5]⟩ = false := by decide
theorem smoke_nnn_too_large : Line.wellFormed ⟨.jp, [.num 4096]⟩ = false := by decide
theorem smoke_nnn_too_large_I : Line.wellFormed ⟨.ld, [.addrReg, .num 4096]⟩ = false := by decide
theorem smoke_jp_other_register : Line.wellFormed ⟨.jp, [.reg 1, .num 0x300]⟩ = false := by decide
theorem smoke_jp_V0_nnn_too_large : Line.wellFormed ⟨.jp, [.reg 0, .num 4096]⟩ = false := by decide
theorem smoke_n_too_large : Line.wellFormed ⟨.drw, [.reg 0, .reg 1, .num 16]⟩ = false := by decide
theorem smoke_drw_register_too_large : Line.wellFormed ⟨.drw, [.reg 0, .reg 16, .num 1]⟩ = false := by decide
theorem smoke_special_register_too_large : Line.wellFormed ⟨.ld, [.dt, .reg 16]⟩ = false := by decide
theorem smoke_dw_too_large : Line.wellFormed ⟨.dw, [.num 65536]⟩ = false := by decide
theorem smoke_wrong_shape : Line.wellFormed ⟨.cls, [.reg 0]⟩ = false := by decide
/-- Rule R76 prints a recognized word as its instruction, so `DW` is for the others only. -/
theorem smoke_dw_of_recognized_word : Line.assemble ⟨.dw, [.num 0x00E0]⟩ = none := by decide
theorem smoke_instruction_accepted : (Instr.drw 0xF 1 15).wellFormed = true := by decide

/-! ## Decoding: one word of each instruction, written out from its Encoding line -/

theorem test_decode_family0 : decode 0b0000000011100000#16 = .ok .cls ∧
    decode 0b0000000011101110#16 = .ok .ret := by decide
theorem test_decode_jumps : decode 0b0001101010111100#16 = .ok (.jp 0xABC) ∧
    decode 0b0010010000000001#16 = .ok (.call 0x401) ∧
    decode 0b1011111111111110#16 = .ok (.jpV0 0xFFE) := by decide
theorem test_decode_skips : decode 0b0011001101000010#16 = .ok (.seImm 3 0x42) ∧
    decode 0b0100001101000010#16 = .ok (.sneImm 3 0x42) ∧
    decode 0b0101000100100000#16 = .ok (.seReg 1 2) ∧
    decode 0b1001000100100000#16 = .ok (.sneReg 1 2) := by decide
theorem test_decode_immediates : decode 0b0110101000000101#16 = .ok (.ldImm 0xA 0x05) ∧
    decode 0b0111000111111111#16 = .ok (.addImm 1 0xFF) ∧
    decode 0b1100001100001111#16 = .ok (.rnd 3 0x0F) := by decide
theorem test_decode_alu_copies : decode 0b1000000100100000#16 = .ok (.ldReg 1 2) ∧
    decode 0b1000000100100001#16 = .ok (.orReg 1 2) ∧
    decode 0b1000000100100010#16 = .ok (.andReg 1 2) ∧
    decode 0b1000000100100011#16 = .ok (.xorReg 1 2) := by decide
theorem test_decode_alu_flags : decode 0b1000000100100100#16 = .ok (.addReg 1 2) ∧
    decode 0b1000000100100101#16 = .ok (.sub 1 2) ∧
    decode 0b1000001101000110#16 = .ok (.shr 3 4) ∧
    decode 0b1000000100100111#16 = .ok (.subn 1 2) ∧
    decode 0b1000001101001110#16 = .ok (.shl 3 4) := by decide
theorem test_decode_index_display : decode 0b1010001100000000#16 = .ok (.ldI 0x300) ∧
    decode 0b1101111100010010#16 = .ok (.drw 0xF 1 2) := by decide
theorem test_decode_timers_keypad : decode 0b1111010100000111#16 = .ok (.ldVxDt 5) ∧
    decode 0b1111001100001010#16 = .ok (.ldVxK 3) ∧
    decode 0b1111010100010101#16 = .ok (.ldDtVx 5) ∧
    decode 0b1111010100011000#16 = .ok (.ldStVx 5) := by decide
theorem test_decode_memory : decode 0b1111001000011110#16 = .ok (.addI 2) ∧
    decode 0b1111001100101001#16 = .ok (.ldF 3) ∧
    decode 0b1111010000110011#16 = .ok (.ldB 4) ∧
    decode 0b1111000101010101#16 = .ok (.ldMemVx 1) ∧
    decode 0b1111001001100101#16 = .ok (.ldVxMem 2) := by decide
/-- V6: family 0 has two instructions only. -/
theorem test_unrecognized_family0 : decode 0x0000 = .error .familyZero ∧ decode 0x00E1 = .error .familyZero ∧
    decode 0x00EF = .error .familyZero ∧ decode 0x0FFF = .error .familyZero := by decide
/-- V5, V7, V8, V9, V10. -/
theorem test_unrecognized_others : decode 0x5121 = .error .skipSelector ∧
    decode 0x9001 = .error .skipSelector ∧ decode 0x8008 = .error .aluSelector ∧
    decode 0x800F = .error .aluSelector ∧ decode 0xE0A1 = .error .familyE ∧
    decode 0xF066 = .error .familyFSelector ∧ decode 0xF000 = .error .familyFSelector := by decide
/-- The bytes in memory order, high byte first (rule R41). -/
theorem test_byte_order : encodeBytes (.jp 0xABC) = [0x1A, 0xBC] ∧
    decodeBytes [0x1A, 0xBC, 0x60] = some (.ok (.jp 0xABC), [0x60]) ∧ decodeBytes [0x1A] = none := by decide
/-- Rule R76's notation. -/
theorem test_listing : (disassemble 0x8346).text = "SHR V3, V4" ∧ (disassemble 0x120C).text = "JP 0x20C" ∧
    (disassemble 0x0000).text = "DW 0x0000" := by decide
theorem test_assemble : Line.assemble ⟨.shr, [.reg 3]⟩ = some 0x8306 ∧
    Line.assemble ⟨.jp, [.reg 0, .num 0x300]⟩ = some 0xB300 := by decide

/-! ## The step -/

/-- V1: pc = 0xFFE fetches. -/
theorem test_fetch_last_word : after (·.pc) (step (State.withFetchWord (State.reset.setPc 0xFFE) 16 0x1FFE)) =
    some 0xFFE := by decide
/-- V2: pc = 0xFFF does not. -/
theorem test_fetch_fault : after (·.faultOut) (step (State.reset.setPc 0xFFF)) =
    some (some ⟨.fetchOutOfRange, 0xFFF, none, 0xFFF⟩) := by decide
/-- V4: an odd pc fetches. -/
theorem test_odd_pc : after (fun t => (t.readV 0, t.pc))
    (step (State.withFetchWord (State.reset.setPc 0x201) 16 0x6007)) = some (7, 0x203) := by decide
/-- E1: the step after the load of an empty image. -/
theorem test_reset_step : State.reset.report = some ⟨0x0000, 0x200⟩ ∧
    step State.reset = .next (State.reset.setPc 0x202) := ⟨by decide, rfl⟩
/-- V105. -/
theorem test_no_step_in_wait : step (State.reset.awaitKey 3) = .fault (.awaitingKey 3) := rfl

/-! ## Control flow -/

/-- V13. -/
theorem test_jp : after (·.pc) (step (ready 0x1ABC [] 0)) = some 0xABC := by decide
/-- V15. -/
theorem test_call_last_slot : after (fun t => (t.sp, t.stack[15], t.pc))
    (step { ready 0x2400 [] 0 with depth := 15 }) = some (15, 0x202, 0x400) := by decide
/-- V16. -/
theorem test_call_overflow : after (fun t => (t.faultOut, t.sp, t.pc)) (step { ready 0x2400 [] 0 with depth := 16 }) =
    some (some ⟨.stackOverflow, 0x200, some 0x2400, 0x200⟩, 15, 0x200) := by decide
/-- V17. -/
theorem test_ret : after (fun t => (t.pc, t.sp))
    (step { ready 0x00EE [] 0 with depth := 1, stack := (Vector.replicate 16 0).set 0 0x345 }) =
    some (0x345, -1) := by decide
/-- V18. -/
theorem test_ret_underflow : after (fun t => (t.faultOut, t.pc)) (step (ready 0x00EE [] 0)) =
    some (some ⟨.stackUnderflow, 0x200, some 0x00EE, 0x200⟩, 0x200) := by decide
/-- V19, V20. -/
theorem test_se_imm : after (·.pc) (step (ready 0x3342 [(3, 0x42)] 0)) = some 0x204 ∧
    after (·.pc) (step (ready 0x3342 [(3, 0x41)] 0)) = some 0x202 := by decide
/-- V21, V22. -/
theorem test_sne_imm : after (·.pc) (step (ready 0x4342 [(3, 0x41)] 0)) = some 0x204 ∧
    after (·.pc) (step (ready 0x4342 [(3, 0x42)] 0)) = some 0x202 := by decide
/-- V23, V24. -/
theorem test_se_reg : after (·.pc) (step (ready 0x5120 [(1, 7), (2, 7)] 0)) = some 0x204 ∧
    after (·.pc) (step (ready 0x5120 [(1, 7), (2, 8)] 0)) = some 0x202 := by decide
/-- V25, V26. -/
theorem test_sne_reg : after (·.pc) (step (ready 0x9120 [(1, 7), (2, 8)] 0)) = some 0x204 ∧
    after (·.pc) (step (ready 0x9120 [(1, 7), (2, 7)] 0)) = some 0x202 := by decide
/-- V12: a skip past the end of memory does not fault itself. -/
theorem test_skip_past_end : after (fun t => (t.pc, t.isFaulted))
    (step (State.withFetchWord (State.reset.setPc 0xFFC) 16 0x3000)) = some (0x1000, false) := by decide
/-- V28. -/
theorem test_jp_v0 : after (fun t => (t.pc, t.isFaulted)) (step (ready 0xBFFF [(0, 0xFF)] 0)) =
    some (0x10FE, false) := by decide

/-! ## Arithmetic and logic -/

/-- V30. -/
theorem test_ld_imm : after (·.readV 0xA) (step (ready 0x6A05 [] 0)) = some 5 := by decide
/-- V31: no flag. -/
theorem test_add_imm : regs2 1 15 (ready 0x7101 [(1, 0xFF), (15, 0x77)] 0) = some (0, 0x77) := by decide
/-- V33. -/
theorem test_ld_reg : regs2 1 2 (ready 0x8120 [(2, 0x9C)] 0) = some (0x9C, 0x9C) := by decide
/-- V34. -/
theorem test_or : regs2 1 15 (ready 0x8121 [(1, 0xF0), (2, 0x0F), (15, 0x55)] 0) = some (0xFF, 0x55) := by decide
/-- V35. -/
theorem test_and : regs2 1 15 (ready 0x8122 [(1, 0xF0), (2, 0x3C), (15, 0x55)] 0) = some (0x30, 0x55) := by decide
/-- V36. -/
theorem test_xor : regs2 1 15 (ready 0x8123 [(1, 0xF0), (2, 0x3C), (15, 0x55)] 0) = some (0xCC, 0x55) := by decide
/-- V38, V39. -/
theorem test_add_carry : regs2 0 15 (ready 0x8014 [(0, 0xFF), (1, 0x01)] 0) = some (0, 1) ∧
    regs2 0 15 (ready 0x8014 [(0, 0x80), (1, 0x7F)] 0) = some (0xFF, 0) := by decide
/-- V41, V42: x = F and y = F. -/
theorem test_add_flag_last : after (·.readV 15) (step (ready 0x8F14 [(15, 0xFF), (1, 1)] 0)) = some 1 ∧
    regs2 0 15 (ready 0x80F4 [(0, 1), (15, 0xFF)] 0) = some (0, 1) := by decide
/-- V43, V44. -/
theorem test_sub : regs2 0 15 (ready 0x8015 [(0, 5), (1, 5)] 0) = some (0, 0) ∧
    regs2 0 15 (ready 0x8015 [(0, 5), (1, 6)] 0) = some (0xFF, 0) := by decide
/-- V45, V46. -/
theorem test_sub_flag : regs2 0 15 (ready 0x8015 [(0, 6), (1, 5)] 0) = some (1, 1) ∧
    after (·.readV 15) (step (ready 0x8F15 [(15, 0x10), (1, 1)] 0)) = some 1 := by decide
/-- V47, V48. -/
theorem test_subn : regs2 0 15 (ready 0x8017 [(0, 5), (1, 6)] 0) = some (1, 1) ∧
    regs2 0 15 (ready 0x8017 [(0, 6), (1, 5)] 0) = some (0xFF, 0) := by decide
/-- V52, V53: the source under each value of SHIFT_SOURCE. -/
theorem test_shr_source : (ready 0x8346 [(3, 4), (4, 7)] 0).shiftOperandOf .vy 3 4 = 7 ∧
    (ready 0x8346 [(3, 4), (4, 7)] 0).shiftOperandOf .vx 3 4 = 4 := by decide
/-- V52, V57: the result and the flag, written last. -/
theorem test_shr_result : ((State.reset.putShr 3 7).readV 3, (State.reset.putShr 3 7).readV 15) = (3, 1) ∧
    (State.reset.putShr 15 3).readV 15 = 1 := by decide
/-- V54, V56. -/
theorem test_shl_result : ((State.reset.putShl 3 0x81).readV 3, (State.reset.putShl 3 0x81).readV 15) = (2, 1) ∧
    ((State.reset.putShl 3 0x7F).readV 3, (State.reset.putShl 3 0x7F).readV 15) = (0xFE, 0) := by decide
/-- V58, V60. -/
theorem test_rnd_mask : maskRandom 0xA7 0x0F = 0x07 ∧ maskRandom 0x5A 0xFF = 0x5A := by decide
/-- V59: any random byte. -/
theorem test_rnd_zero_mask : after (fun t => (t.readV 3, t.draws)) (step (ready 0xC300 [(3, 9)] 0)) =
    some (0, 1) :=
  (rfl : _ = some (Config.randomByte 0 &&& 0, 1)).trans (by simp)

/-! ## The address register and memory -/

/-- V61. -/
theorem test_ld_i : after (·.i) (step (ready 0xA300 [] 0)) = some 0x300 := by decide
/-- V63, V64. -/
theorem test_add_i : after (fun t => (t.i, t.readV 15)) (step (ready 0xF21E [(2, 1)] 0x0FFF)) = some (0x1000, 0) ∧
    after (·.i) (step (ready 0xF21E [(2, 2)] 0xFFFF)) = some 1 := by decide
/-- V65, V67: not masked. -/
theorem test_ld_f : after (·.i) (step (ready 0xF329 [(3, 7)] 0)) = some 0x023 ∧
    after (·.i) (step (ready 0xF329 [(3, 0xFF)] 0)) = some 0x4FB := by decide
/-- E8. -/
theorem test_bcd : after (fun t => (t.mem.readBytes 0x300 3, t.i)) (step (ready 0xF433 [(4, 0xF9)] 0x300)) =
    some ([2, 4, 9], 0x300) := by decide
/-- V72. -/
theorem test_bcd_fault : after (fun t => (t.faultOut, t.readMem 0xFFE)) (step (ready 0xF433 [(4, 7)] 0xFFE)) =
    some (some ⟨.writeOutOfRange, 0x200, some 0xF433, 0x1000⟩, 0) := by decide
/-- V73. -/
theorem test_block_store : after (fun t => (t.mem.readBytes 0x400 3, t.i))
    (step (ready 0xF155 [(0, 0x11), (1, 0x22), (2, 0x33)] 0x400)) = some ([0x11, 0x22, 0], 0x400) := by decide
/-- V74, V75. -/
theorem test_block_store_edge : after (·.isFaulted) (step (ready 0xFF55 [] 0xFF0)) = some false ∧
    after (·.faultOut) (step (ready 0xFF55 [] 0xFF1)) =
      some (some ⟨.writeOutOfRange, 0x200, some 0xFF55, 0x1000⟩) := by decide
/-- V77. -/
theorem test_block_load : after (fun t => (t.readV 0, t.readV 1, t.readV 2, t.readV 3))
    (step (readyMem 0xF265 [(3, 9)] 0x300 0x300 [2, 4, 9, 8])) = some (2, 4, 9, 9) := by decide
/-- V79. -/
theorem test_block_load_fault : after (·.faultOut) (step (ready 0xF165 [] 0xFFF)) =
    some (some ⟨.readOutOfRange, 0x200, some 0xF165, 0x1000⟩) := by decide

/-! ## Display -/

/-- V83. -/
theorem test_cls : after (fun t => (t.fb[7], t.readV 15))
    (step { ready 0x00E0 [(15, 5)] 0 with fb := .replicate 32 0xFF }) = some (0, 5) := by decide
/-- Program P3, first draw: rows F0 and 81 at x = 60, y = 31. -/
theorem test_drw_wraps : after (fun t => (t.fb[31], t.fb[0], t.readV 15))
    (step (readyMem 0xD012 [(0, 0x3C), (1, 0x1F)] 0x300 0x300 [0xF0, 0x81])) =
    some (0x000000000000000F, 0x1000000000000008, 0) := by decide
/-- V85: one pixel turned off. -/
theorem test_drw_collision : after (fun t => (t.fb[0], t.readV 15))
    (step { readyMem 0xD011 [] 0x300 0x300 [0xC0] with
      fb := (Vector.replicate 32 0).set 0 0x8000000000000000 }) = some (0x4000000000000000, 1) := by decide

/-! ## Timers, keys, ticks and load -/

/-- V94. -/
theorem test_ld_vx_dt : after (fun t => (t.readV 5, t.dt)) (step ((ready 0xF507 [] 0).setDT 0x3C)) =
    some (0x3C, 0x3C) := by decide
/-- V95. -/
theorem test_ld_dt_vx : after (fun t => (t.dt, t.st)) (step (ready 0xF515 [(5, 0x20)] 0)) = some (0x20, 0) := by decide
/-- V96. -/
theorem test_ld_st_vx : after (fun t => (t.dt, t.st)) (step (ready 0xF518 [(5, 0x20)] 0)) = some (0, 0x20) := by decide
/-- V99. -/
theorem test_ld_vx_k : after (fun t => (t.run, t.pc))
    (step (State.withFetchWord (State.reset.setPc 0x250) 16 0xF30A)) = some (.awaitKey 3, 0x252) := by decide
/-- V97, V98, V100. -/
theorem test_tick : ((State.reset.setDT 1).tick.dt, ((State.reset.setST 3).tick).dt, ((State.reset.setST 3).tick).st) =
    (0, 0, 2) ∧ (((State.reset.setDT 2).awaitKey 3).tick.dt, ((State.reset.setDT 2).awaitKey 3).tick.run) =
    (1, .awaitKey 3) := by decide
/-- V101, V102. -/
theorem test_key : (((State.reset.awaitKey 3).key 0xB).readV 3, ((State.reset.awaitKey 3).key 0xB).run) =
    (0x0B, .running) ∧ State.reset.key 4 = State.reset := by decide
/-- V104. -/
theorem test_faulted_rests : (((State.reset.setDT 5).fetchFault).tick.key 2) = (State.reset.setDT 5).fetchFault := by
  decide
/-- E1: an image of two bytes; the font is a value without a name. -/
theorem test_load : (match load .zero [0x12, 0x00] with
    | .ok s => (s.readMem 0x200, s.readMem 0x201, s.readMem 0x202, s.readMem 0x04F)
    | .error _ => (0, 0, 0, 0)) = (0x12, 0x00, 0x00, Config.font 0x04F) := by rfl
/-- Rule R49's table: 80 bytes, and the rows of glyphs 7 and 8 about its middle. -/
theorem test_reference_font : (Config.referenceFontLow ++ Config.referenceFontHigh).length = Config.fontSize ∧
    ((Config.referenceFontLow ++ Config.referenceFontHigh).drop 35).take 10 =
      [0xF0, 0x10, 0x20, 0x40, 0x40, 0xF0, 0x90, 0xF0, 0x90, 0xF0] := by decide
/-- Rule R59. -/
theorem test_load_unreadable : loadSource .zero none = .error .sourceUnreadable := rfl

/-! ## Witnesses: the hypotheses of each obligation met together by a concrete state and operands -/

/-- EncodeOfDecodeIsTheWord, for a word whose y field the default shift ignores. -/
theorem witness_EncodeOfDecodeIsTheWord : decode 0x8346 = .ok (.shr 3 4) := by decide

/-- DecoderAcceptsExactlyTheTableRows, both clauses. -/
theorem witness_DecoderAcceptsExactlyTheTableRows :
    decode 0x8007 = .ok (.subn 0 0) ∧ decode 0x8008 = .error .aluSelector := by decide

/-- AluAndMiscSelectorsAreRecognized: the first and last word of each family, and a word of every selector. -/
theorem witness_AluAndMiscSelectorsAreRecognized :
    (0x8000#16).toNat / 4096 = 8 ∧ (0x8FFF#16).toNat / 4096 = 8 ∧ (0xF000#16).toNat / 4096 = 0xF ∧
    (0xFFFF#16).toNat / 4096 = 0xF ∧
    decode (0x8#4 ++ 0xF#4 ++ 0x0#4 ++ 0x0#4) = .ok (.ldReg 0xF 0) ∧ decode (0x8#4 ++ 0xF#4 ++ 0x0#4 ++ 0x1#4) = .ok (.orReg 0xF 0) ∧
    decode (0x8#4 ++ 0xF#4 ++ 0x0#4 ++ 0x2#4) = .ok (.andReg 0xF 0) ∧ decode (0x8#4 ++ 0xF#4 ++ 0x0#4 ++ 0x3#4) = .ok (.xorReg 0xF 0) ∧
    decode (0x8#4 ++ 0xF#4 ++ 0x0#4 ++ 0x4#4) = .ok (.addReg 0xF 0) ∧ decode (0x8#4 ++ 0xF#4 ++ 0x0#4 ++ 0x5#4) = .ok (.sub 0xF 0) ∧
    decode (0x8#4 ++ 0xF#4 ++ 0x0#4 ++ 0x6#4) = .ok (.shr 0xF 0) ∧ decode (0x8#4 ++ 0xF#4 ++ 0x0#4 ++ 0x7#4) = .ok (.subn 0xF 0) ∧
    decode (0x8#4 ++ 0xF#4 ++ 0x0#4 ++ 0xE#4) = .ok (.shl 0xF 0) ∧
    decode (0xF#4 ++ 0xF#4 ++ 0x07#8) = .ok (.ldVxDt 0xF) ∧ decode (0xF#4 ++ 0xF#4 ++ 0x0A#8) = .ok (.ldVxK 0xF) ∧
    decode (0xF#4 ++ 0xF#4 ++ 0x15#8) = .ok (.ldDtVx 0xF) ∧ decode (0xF#4 ++ 0xF#4 ++ 0x18#8) = .ok (.ldStVx 0xF) ∧
    decode (0xF#4 ++ 0xF#4 ++ 0x1E#8) = .ok (.addI 0xF) ∧ decode (0xF#4 ++ 0xF#4 ++ 0x29#8) = .ok (.ldF 0xF) ∧
    decode (0xF#4 ++ 0xF#4 ++ 0x33#8) = .ok (.ldB 0xF) ∧ decode (0xF#4 ++ 0xF#4 ++ 0x55#8) = .ok (.ldMemVx 0xF) ∧
    decode (0xF#4 ++ 0xF#4 ++ 0x65#8) = .ok (.ldVxMem 0xF) := by decide

/-- The state of V1: the last pc that can be fetched, and a word there. -/
def lastWord (w : Nat) : State := (State.reset.setPc 0xFFE).withFetchWord 16 w

/-- StepRunsTheDecodedInstruction. -/
theorem witness_StepRunsTheDecodedInstruction : (lastWord 0x1FFE).run = .running ∧
    (lastWord 0x1FFE).pc.toNat + 2 ≤ 4096 ∧
    decode ((lastWord 0x1FFE).readMem (lastWord 0x1FFE).pc.toNat ++
      (lastWord 0x1FFE).readMem ((lastWord 0x1FFE).pc.toNat + 1)) = .ok (.jp 0xFFE) := by decide

/-- UnrecognizedWordIsSkippedAndReported, both clauses. -/
theorem witness_UnrecognizedWordIsSkippedAndReported : (lastWord 0x5121).run = .running ∧
    (lastWord 0x5121).pc.toNat + 2 ≤ 4096 ∧ decode (lastWord 0x5121).wordAtPc = .error .skipSelector ∧
    (lastWord 0x5120).run = .running ∧ (lastWord 0x5120).pc.toNat + 2 ≤ 4096 ∧
    decode (lastWord 0x5120).wordAtPc = .ok (.seReg 1 2) := by decide

/-- FetchPastMemoryFaults, at the lowest pc and at a higher one. -/
theorem witness_FetchPastMemoryFaults : (State.reset.setPc 0xFFF).run = .running ∧
    0xFFF ≤ (State.reset.setPc 0xFFF).pc.toNat ∧ (State.reset.setPc 0x10FE).run = .running ∧
    0xFFF ≤ (State.reset.setPc 0x10FE).pc.toNat := by decide

/-- StepIsEnabledExactlyInRunning: a state of each kind. -/
theorem witness_StepIsEnabledExactlyInRunning : State.reset.run = .running ∧
    (State.reset.awaitKey 0xF).run = .awaitKey 0xF ∧
    State.reset.fetchFault.run = .faulted ⟨.fetchOutOfRange, 0x200, none, 0x200⟩ := by decide

/-- PlacedWordIsTheOneFetched, its last clause, in a machine that waits for a key. -/
theorem witness_PlacedWordIsTheOneFetched : ((State.reset.setPc 0xFFE).awaitKey 3).pc.toNat + 2 ≤ 4096 ∧
    (State.reset.setPc 0xFFE).pc.toNat + 2 ≤ 4096 ∧ (0 : Nat) ≠ (State.reset.setPc 0xFFE).pc.toNat ∧
    (0 : Nat) ≠ (State.reset.setPc 0xFFE).pc.toNat + 1 := by decide

/-- FaultEntryIsPrecise, for each of the five causes. -/
theorem witness_FaultEntryIsPrecise :
    (∃ t, step (State.reset.setPc 0xFFF) = .next t ∧ t.isFaulted = true) ∧
    (∃ t, step (ready 0xD013 [] 0xFFE) = .next t ∧ t.isFaulted = true) ∧
    (∃ t, step (ready 0xF433 [] 0xFFE) = .next t ∧ t.isFaulted = true) ∧
    (∃ t, step { ready 0x2400 [] 0 with depth := 16 } = .next t ∧ t.isFaulted = true) ∧
    (∃ t, step (ready 0x00EE [] 0) = .next t ∧ t.isFaulted = true) :=
  ⟨⟨_, rfl, rfl⟩, ⟨_, rfl, rfl⟩, ⟨_, rfl, rfl⟩, ⟨_, rfl, rfl⟩, _, rfl, rfl⟩

/-- The record of V92 fits: I = 0xFFE and three rows, of which 0x1000 is the lowest address past memory. -/
theorem test_fits_lowest_address :
    FaultRecord.fits ⟨.readOutOfRange, 0x200, some 0xD013, 0x1000⟩ (ready 0xD013 [] 0xFFE) :=
  ⟨rfl, by decide, .drw 0 1 3, by decide, by decide, by decide⟩

/-- OnlyTheListedConditionsFault: a return that faults, and a draw that does not. -/
theorem witness_OnlyTheListedConditionsFault : State.reset.isFaulted = false ∧
    exec .ret State.reset = .next (State.reset.takeFault .stackUnderflow (some 0x00EE) 0x200) ∧
    (∃ t, exec (.drw 0 1 1) (State.reset.setI 0xFFF) = .next t) := ⟨rfl, rfl, _, rfl⟩

/-- FaultedIsAbsorbing. -/
theorem witness_FaultedIsAbsorbing : State.reset.fetchFault.isFaulted = true ∧
    ∀ a ∈ [Action.tick, .key 2], a ≠ .step := by decide

/-- A state with the invariant, for the statements about it. -/
theorem inv_reset : State.reset.Inv where
  memory := rfl
  pcBound := by decide
  returns := fun k h => absurd h (Nat.not_lt_zero k.val)
  record := fun r h => nomatch (h : RunState.running = .faulted r)

/-- EveryStepKeepsTheInvariant. -/
theorem witness_EveryStepKeepsTheInvariant : State.reset.Inv ∧ step State.reset = .next (State.reset.setPc 0x202) :=
  ⟨inv_reset, rfl⟩

/-- EveryRunOfTheDriverKeepsTheInvariant. -/
theorem witness_EveryRunOfTheDriverKeepsTheInvariant : State.reset.Inv ∧
    ∃ t, actAll [.tick, .step, .key 3] State.reset = .next t := ⟨inv_reset, _, rfl⟩

/-- ResetAndLoadedMachinesHaveTheInvariant and LoadedMachineStartsAt0x200. -/
theorem witness_LoadedMachine : ∃ s, load .zero [0x12, 0x00] = .ok s := ⟨_, rfl⟩

/-- EqualReadsMakeEqualMemories. -/
theorem witness_EqualReadsMakeEqualMemories : Memory.wf [(0x300, 5)] = true ∧
    ∀ a < 4096, Memory.read [(0x300, 5)] a = Memory.read ((0x300, 5) :: []) a := ⟨by decide, fun _ _ => rfl⟩

/-- OnlyNamedInstructionsWriteGeneralRegisters: a register below and one above the one written. -/
theorem witness_OnlyNamedInstructionsWriteGeneralRegisters : (∃ t, exec (.addReg 3 4) State.reset = .next t) ∧
    writtenRegs (.addReg 3 4) 2 = false ∧ writtenRegs (.addReg 3 4) 14 = false := ⟨⟨_, rfl⟩, rfl, rfl⟩

/-- The statements about whatever an instruction does (OnlyThreeInstructionsWriteI,
OnlyTimerInstructionsAndTheTickTouchTimers, OnlyTheTwoStoresChangeMemory, OnlyTheKeyWaitAndFaultsChangeRun). -/
theorem witness_exec_next : (∃ t, exec (.addI 3) State.reset = .next t) ∧
    (∃ t, exec (.ldDtVx 3) State.reset = .next t) ∧ (∃ t, exec (.ldStVx 3) State.reset = .next t) ∧
    (∃ t, exec (.ldB 3) (State.reset.setI 0xFFD) = .next t) ∧ (∃ t, exec (.ldMemVx 15) State.reset = .next t) ∧
    (∃ t, exec (.ldVxK 3) State.reset = .next t) ∧ (∃ t, exec .ret State.reset = .next t) :=
  ⟨⟨_, rfl⟩, ⟨_, rfl⟩, ⟨_, rfl⟩, ⟨_, rfl⟩, ⟨_, rfl⟩, ⟨_, rfl⟩, ⟨_, rfl⟩⟩

/-- OnlyTimerInstructionsAndTheTickTouchTimers, its clauses for the instructions that no timer reaches. -/
theorem witness_timer_clauses : (∀ x, Instr.addI 3 ≠ .ldVxDt x) ∧ (∀ x, Instr.addI 3 ≠ .ldDtVx x) ∧
    (∀ x, Instr.addI 3 ≠ .ldStVx x) ∧ (∀ x, Instr.ldVxDt 3 ≠ .ldStVx x) := ⟨nofun, nofun, nofun, nofun⟩

/-- StackAndFramebufferAreReachedOnlyByTheirInstructions: its three clauses about an instruction. -/
theorem witness_StackAndFramebufferAreReachedOnlyByTheirInstructions :
    ((∃ t, exec (.ldF 3) State.reset = .next t) ∧ Instr.ldF 3 ≠ .ret ∧ (∀ nnn, Instr.ldF 3 ≠ .call nnn) ∧
      Instr.ldF 3 ≠ .cls ∧ ∀ x y n, Instr.ldF 3 ≠ .drw x y n) ∧
    (∃ t, exec (.call 0x300) State.reset = .next t) :=
  ⟨⟨⟨_, rfl⟩, nofun, nofun, nofun, nofun⟩, _, rfl⟩

/-- ReturnPopsTheTopSlot, with one address on the stack and with sixteen. -/
theorem witness_ReturnPopsTheTopSlot : 0 ≤ State.sp { State.reset with depth := 1 } ∧
    (((0 : Fin 16).val : Int) = State.sp { State.reset with depth := 1 }) ∧
    0 ≤ State.sp { State.reset with depth := 16 } ∧
    (((15 : Fin 16).val : Int) = State.sp { State.reset with depth := 16 }) := by decide

/-- CallPushesTheNextAddress, for the first and the last slot. -/
theorem witness_CallPushesTheNextAddress : State.reset.sp < 15 ∧ State.sp { State.reset with depth := 15 } < 15 := by
  decide

/-- FullAndEmptyStacksFault. -/
theorem witness_FullAndEmptyStacksFault : State.sp { State.reset with depth := 16 } = 15 ∧ State.reset.sp = -1 := by
  decide

/-- The image of E4, with the call and the return. -/
def callReturn : State := (ready 0x2204 [] 0).storeBytes 0x204 [0x00, 0xEE]

/-- CallThenReturnComesBack, with the stack empty and with fifteen addresses on it. -/
theorem witness_CallThenReturnComesBack : callReturn.run = .running ∧ callReturn.pc.toNat + 2 ≤ 4096 ∧
    callReturn.wordAtPc = 0x2#4 ++ 0x204#12 ∧ callReturn.sp < 15 ∧
    State.sp { callReturn with depth := 15 } < 15 ∧ (0x204#12).toNat + 2 ≤ 4096 ∧
    callReturn.readMem (0x204#12).toNat ++ callReturn.readMem ((0x204#12).toNat + 1) = 0x00EE#16 := by decide

/-- JumpSetsPc: a jump to itself, and a jump to 0xFFF. -/
theorem witness_JumpSetsPc : (0x200#12).toNat = State.reset.pc.toNat ∧
    (0xFFF#12).toNat = 0xFFF ∧ State.reset.run = .running := by decide

/-- SkipImmediateOnEqualAndNotEqual, its clauses for each instruction and for a pc past memory (V12). -/
theorem witness_SkipImmediateOnEqualAndNotEqual :
    (State.reset.setPc 0xFFC).run = .running ∧
    (∃ t, exec (.seImm 0 0) (State.reset.setPc 0xFFC) = .next t ∧ 0xFFF ≤ t.pc.toNat) ∧
    (∃ t, exec (.sneImm 0 1) (State.reset.setPc 0xFFC) = .next t ∧ 0xFFF ≤ t.pc.toNat) :=
  ⟨rfl, ⟨_, rfl, by decide⟩, _, rfl, by decide⟩

/-- ShiftsMoveOneBitOutIntoVF: a byte that is the source under either value of SHIFT_SOURCE. -/
theorem witness_ShiftsMoveOneBitOutIntoVF :
    (Config.shiftSource = .vx → (7 : Byte) = ((State.reset.writeV 3 7).writeV 4 7).readV 3) ∧
    (Config.shiftSource = .vy → (7 : Byte) = ((State.reset.writeV 3 7).writeV 4 7).readV 4) ∧
    (3 : Nibble) ≠ 15 := ⟨fun _ => rfl, fun _ => rfl, by decide⟩

/-- AddSetsCarryLast and SubtractionsSetTheStrictFlagLast, their clauses for x ≠ F. -/
theorem witness_flag_clauses : (14 : Nibble) ≠ 15 ∧ (0 : Nibble) ≠ 15 := by decide

/-- BcdStoresThreeDigits, at the last address where it fits (V71); an address outside the stored bytes. -/
theorem witness_BcdStoresThreeDigits : (State.reset.setI 0xFFD).i.toNat + 3 ≤ 4096 ∧
    ∀ k < 3, 0xFFC ≠ (State.reset.setI 0xFFD).i.toNat + k := by decide

/-- BlockStoreWritesV0ThroughVx, BlockLoadReadsV0ThroughVx, at the last address where x = F fits (V74). -/
theorem witness_block_transfer : (State.reset.setI 0xFF0).i.toNat + (0xF : Nibble).toNat + 1 ≤ 4096 ∧
    (∀ k : Nibble, k.toNat ≤ (0xF : Nibble).toNat → 0xFEF ≠ (State.reset.setI 0xFF0).i.toNat + k.toNat) ∧
    (0xF : Nibble).toNat ≤ (0xF : Nibble).toNat := by decide

/-- StoreThenLoadRecoversTheRegisters: the second state has every register zero (E9). -/
theorem witness_StoreThenLoadRecoversTheRegisters : ∃ s t u : State, s.i.toNat + (0xF : Nibble).toNat + 1 ≤ 4096 ∧
    exec (.ldMemVx 0xF) s = .next t ∧ u.i = s.i ∧ ∀ a, u.readMem a = t.readMem a :=
  ⟨(State.reset.writeV 3 5).setI 0x400, _, ((State.reset.setI 0x400).storeBytes 0x403 [5]), by decide, rfl, rfl,
    fun _ => rfl⟩

/-- TransfersPastMemoryFaultPrecisely: each clause one address past the last that fits, and far past it. -/
theorem witness_TransfersPastMemoryFaultPrecisely : 4096 < (State.reset.setI 0xFFE).i.toNat + 3 ∧
    4096 < (State.reset.setI 0xFF1).i.toNat + (0xF : Nibble).toNat + 1 ∧
    4096 < (State.reset.setI 0x1000).i.toNat + (0 : Nibble).toNat + 1 ∧ (1 : Nibble) ≠ 0 ∧
    4096 < (State.reset.setI 0x1000).i.toNat + (1 : Nibble).toNat ∧
    4096 < (State.reset.setI 0xFFFF).i.toNat + 3 := by decide

/-- A machine whose V0 and V1 hold the word 1200, with I at the next instruction (V82). -/
def selfModifying : State := (State.reset.writeV 0 0x12).setI 0x202

/-- StoredInstructionIsFetchedNext. -/
theorem witness_StoredInstructionIsFetchedNext : selfModifying.run = .running ∧
    selfModifying.pc.toNat + 4 ≤ 4096 ∧ selfModifying.i = selfModifying.pc + 2 ∧ 1 ≤ (1 : Nibble).toNat ∧
    selfModifying.i.toNat + (1 : Nibble).toNat + 1 ≤ 4096 ∧
    decode (selfModifying.readV 0 ++ selfModifying.readV 1) = .ok (.jp 0x200) := by decide

/-- ClearDarkensEveryRow, its last clause. -/
theorem witness_ClearDarkensEveryRow : ∀ r : Fin 32, State.reset.fb[r] = 0 := by decide

/-- The state of V85: a lit pixel where the sprite lights two. -/
def drawState : State :=
  { (State.reset.setI 0xFFF).storeBytes 0xFFF [0xC0] with
    fb := (Vector.replicate 32 0).set 0 0x8000000000000000 }

/-- DrawXorsTheSpriteRows, at the last address (V91) and with n = 0 at any (V90). -/
theorem witness_DrawXorsTheSpriteRows : ((1 : Nibble) = 0 ∨ drawState.i.toNat + (1 : Nibble).toNat ≤ 4096) ∧
    ((0 : Nibble) = 0 ∨ (State.reset.setI 0xFFFF).i.toNat + (0 : Nibble).toNat ≤ 4096) := by decide

/-- DrawFlipsExactlyTheSpritePixels: a pixel the sprite lights, and one that it does not. -/
theorem witness_DrawFlipsExactlyTheSpritePixels : ((1 : Nibble) = 0 ∨ drawState.i.toNat + (1 : Nibble).toNat ≤ 4096) ∧
    (∃ k < (1 : Nibble).toNat, spriteLights 63 31 k 0xC0 0 31) ∧
    (¬ ∃ k < (1 : Nibble).toNat, spriteLights 63 31 k 0xC0 1 31) := by
  refine ⟨by decide, ⟨0, by decide, by decide, 1, by decide, by decide, by decide⟩, ?_⟩
  rintro ⟨k, -, -, j, hj, hx, hb⟩
  have h2 : j = 2 := by simp at hx; omega
  subst h2
  exact absurd hb (by decide)

/-- CollisionMeansALitPixelTurnedOff. -/
theorem witness_CollisionMeansALitPixelTurnedOff :
    ((1 : Nibble) = 0 ∨ drawState.i.toNat + (1 : Nibble).toNat ≤ 4096) ∧ ∃ t, exec (.drw 0 1 1) drawState = .next t :=
  ⟨by decide, _, rfl⟩

/-- KeyEventEndsOnlyAWait, both clauses; x = F (V103). -/
theorem witness_KeyEventEndsOnlyAWait : (State.reset.awaitKey 0xF).run = .awaitKey 0xF ∧
    State.reset.awaiting = false ∧ State.reset.fetchFault.awaiting = false := by decide

/-- WaitWithTicksResumesAfterTheKey. -/
theorem witness_WaitWithTicksResumesAfterTheKey : ∃ w, exec (.ldVxK 3) State.reset = .next w := ⟨_, rfl⟩

/-- TicksCountDownToZero, both clauses. -/
theorem witness_TicksCountDownToZero : State.reset.isFaulted = false ∧ State.reset.fetchFault.isFaulted = true := by
  decide

/-- FinalStateStaysPut, at the last pc (V1) and at the first (V29). -/
theorem witness_FinalStateStaysPut : (lastWord 0x1FFE).isFinal ∧ (ready 0x1200 [] 0).isFinal := by decide

/-- LoadBuildsFontImageAndZerosOrRejects: the longest image that loads, the shortest that does not. -/
theorem witness_LoadBuildsFontImageAndZerosOrRejects : (List.replicate 3584 (0 : Byte)).length ≤ 3584 ∧
    (List.replicate 3585 (0 : Byte)).length > 3584 ∧ ([] : List Byte).length ≤ 3584 :=
  ⟨List.length_replicate.le, List.length_replicate.symm ▸ Nat.lt_succ_self 3584, Nat.zero_le _⟩

end Sys2Proof.Tests
end

namespace Sys2Proof.Machine

/-! ## The contents of memory after a load (rules R57, R58) -/

/-- Below 0x050 an unlisted address reads as the font. -/
theorem Memory.background_of_lt {a : Nat} (h : a < 80) : Memory.background a = Config.font a := if_pos h

/-- From 0x050 up an unlisted address reads as zero. -/
theorem Memory.background_of_ge {a : Nat} (h : 80 ≤ a) : Memory.background a = 0 := if_neg h.not_gt

/-- The image stands from 0x200 on. -/
theorem read_loadMemory_image {image : List Byte} {k : Nat} (h : k < image.length) :
    (loadMemory image).read (0x200 + k) = image[k] :=
  Memory.read_writeBytes_inside image [] 0x200 k h

/-- Outside the image a loaded memory reads as an unlisted address. -/
theorem read_loadMemory_outside {image : List Byte} {a : Nat} (h : a < 0x200 ∨ 0x200 + image.length ≤ a) :
    (loadMemory image).read a = Memory.background a :=
  Memory.read_writeBytes_outside image [] 0x200 a h

theorem load_of_fits (l : Launch) {image : List Byte} (h : image.length ≤ 3584) :
    load l image = .ok (.launch l (loadMemory image)) := if_pos h

theorem load_of_too_large (l : Launch) {image : List Byte} (h : 3584 < image.length) :
    load l image = .error (.imageTooLarge image.length) := if_neg h.not_ge

/-- Settles O58: memory is the image written over the background, and the image lies above the font. -/
theorem loadBuildsFontImageAndZerosOrRejects : Obligations.LoadBuildsFontImageAndZerosOrRejects := by
  intro l image
  refine ⟨fun hfits => ⟨_, load_of_fits l hfits, ?image, ?font, ?between, ?above⟩, load_of_too_large l⟩
  case image => exact fun k hk => read_loadMemory_image hk
  case font =>
    intro a ha
    exact (read_loadMemory_outside (.inl (by omega))).trans (Memory.background_of_lt ha)
  case between =>
    intro a ha hlt
    exact (read_loadMemory_outside (.inl hlt)).trans (Memory.background_of_ge ha)
  case above =>
    intro a ha _
    exact (read_loadMemory_outside (.inr ha)).trans (Memory.background_of_ge (by omega))

/-! ## What ticks and keys write (rules R123, R133) -/

/-- A tick writes the two timers and nothing else. -/
theorem State.tick_eq_setTimers (s : State) : ∃ a b, s.tick = (s.setDT a).setST b := by
  cases h : s.isFaulted with
  | true => exact ⟨s.dt, s.st, s.tick_of_faulted h⟩
  | false => exact ⟨_, _, s.tick_of_not_faulted h⟩

/-- A key is discarded, or it ends a wait. -/
theorem State.key_cases (s : State) (k : Nibble) :
    s.key k = s ∨ ∃ x, s.run = .awaitKey x ∧ s.key k = (s.writeV x (k.setWidth 8)).resume := by
  cases h : s.run with
  | awaitKey x => exact .inr ⟨x, rfl, State.key_of_awaitKey h k⟩
  | running => exact .inl (State.key_of_not_awaiting (by simp [State.awaiting, h]) k)
  | faulted r => exact .inl (State.key_of_not_awaiting (by simp [State.awaiting, h]) k)

theorem State.tick_keeps_stack_and_fb (s : State) :
    s.tick.stack = s.stack ∧ s.tick.sp = s.sp ∧ s.tick.fb = s.fb := by
  obtain ⟨a, b, h⟩ := s.tick_eq_setTimers
  simp [h]

theorem State.key_keeps_stack_and_fb (s : State) (k : Nibble) :
    (s.key k).stack = s.stack ∧ (s.key k).sp = s.sp ∧ (s.key k).fb = s.fb := by
  rcases s.key_cases k with h | ⟨x, -, h⟩ <;> simp [h]

/-! ## Which instructions reach which store (rule R39)

An instruction does not reach a store when replacing that store before it only replaces it after: its
meaning commutes with every replacement. -/

/-- What to put in place of the contents of each store of rule R39; a field left out keeps its store. -/
structure Replacement where
  depth : Fin 17 → Fin 17 := id
  stack : Vector Word 16 → Vector Word 16 := id
  fb : Vector Row 32 → Vector Row 32 := id
  mem : Memory → Memory := id

/-- The state with the stores replaced. -/
def State.replace (r : Replacement) (s : State) : State :=
  { s with depth := r.depth s.depth, stack := r.stack s.stack, fb := r.fb s.fb, mem := r.mem s.mem }

/-- An outcome with its next state, if it has one, changed by `f`. -/
def mapNext (f : State → State) : Result → Result
  | .next t => .next (f t)
  | .fault e => .fault e
  | .refused e => .refused e

section replace
variable (d : Fin 17 → Fin 17) (k : Vector Word 16 → Vector Word 16) (f : Vector Row 32 → Vector Row 32)
  (m : Memory → Memory) (s : State)

theorem State.advance_skipIf_replace (r : Replacement) (c : Bool) :
    (s.replace r).advance.skipIf c = (s.advance.skipIf c).replace r := by
  cases c <;> rfl

theorem State.storeThroughI_replace (w : Word) (bs : List Byte) :
    (s.replace ⟨d, k, f, id⟩).storeThroughI w bs = (s.storeThroughI w bs).replace ⟨d, k, f, id⟩ := by
  rw [State.storeThroughI, State.storeThroughI, apply_ite (State.replace _)]; rfl

theorem State.advance_loadRegs_replace (x : Nibble) (a : Nat) :
    (s.replace ⟨d, k, f, id⟩).advance.loadRegs x a = (s.advance.loadRegs x a).replace ⟨d, k, f, id⟩ := by
  unfold State.loadRegs
  rfl

theorem execLdVxMem_replace (x : Nibble) :
    execLdVxMem x (s.replace ⟨d, k, f, id⟩) = mapNext (.replace ⟨d, k, f, id⟩) (execLdVxMem x s) := by
  rw [execLdVxMem, execLdVxMem, apply_ite (mapNext _), State.advance_loadRegs_replace]; rfl

theorem execDrw_replace (x y n : Nibble) :
    execDrw x y n (s.replace ⟨d, k, id, id⟩) = mapNext (.replace ⟨d, k, id, id⟩) (execDrw x y n s) := by
  rw [execDrw, execDrw, apply_ite (mapNext _)]; rfl

theorem execRet_replace :
    execRet (s.replace ⟨id, id, f, m⟩) = mapNext (.replace ⟨id, id, f, m⟩) (execRet s) := by
  rcases Nat.eq_zero_or_pos s.depth.val with h | h
  · rw [execRet, execRet, State.pop_of_zero h, State.pop_of_zero (s := s.replace ⟨id, id, f, m⟩) h]; rfl
  · rw [execRet, execRet, State.pop_of_pos h, State.pop_of_pos (s := s.replace ⟨id, id, f, m⟩) h]; rfl

theorem execCall_replace (nnn : Addr12) :
    execCall nnn (s.replace ⟨id, id, f, m⟩) = mapNext (.replace ⟨id, id, f, m⟩) (execCall nnn s) := by
  by_cases h : s.depth.val < 16
  · rw [execCall, execCall, State.push_of_lt h, State.push_of_lt (s := s.replace ⟨id, id, f, m⟩) h]; rfl
  · have hfull : s.depth.val = 16 := by omega
    rw [execCall, execCall, State.push_of_full hfull,
      State.push_of_full (s := s.replace ⟨id, id, f, m⟩) hfull]
    rfl

/-- The instructions that reach neither the stack nor the framebuffer. -/
theorem exec_replace {i : Instr} (hret : i ≠ .ret) (hcall : ∀ nnn, i ≠ .call nnn) (hcls : i ≠ .cls)
    (hdrw : ∀ x y n, i ≠ .drw x y n) :
    exec i (s.replace ⟨d, k, f, id⟩) = mapNext (.replace ⟨d, k, f, id⟩) (exec i s) := by
  cases i with
  | ret => exact absurd rfl hret
  | call nnn => exact absurd rfl (hcall nnn)
  | cls => exact absurd rfl hcls
  | drw x y n => exact absurd rfl (hdrw x y n)
  | seImm x kk | sneImm x kk => exact congrArg Host.Outcome.next (s.advance_skipIf_replace ⟨d, k, f, id⟩ _)
  | seReg x y | sneReg x y => exact congrArg Host.Outcome.next (s.advance_skipIf_replace ⟨d, k, f, id⟩ _)
  | ldB x | ldMemVx x => exact congrArg Host.Outcome.next (s.storeThroughI_replace d k f _ _)
  | ldVxMem x => exact execLdVxMem_replace d k f s x
  | _ => rfl

/-- RET and CALL reach neither the framebuffer nor memory. -/
theorem exec_replace_of_ret_or_call {i : Instr} (hi : i = .ret ∨ ∃ nnn, i = .call nnn) :
    exec i (s.replace ⟨id, id, f, m⟩) = mapNext (.replace ⟨id, id, f, m⟩) (exec i s) := by
  rcases hi with rfl | ⟨nnn, rfl⟩
  · exact execRet_replace f m s
  · exact execCall_replace f m s nnn

/-- CLS and DRW do not reach the stack. -/
theorem exec_replace_of_cls_or_drw {i : Instr} (hi : i = .cls ∨ ∃ x y n, i = .drw x y n) :
    exec i (s.replace ⟨d, k, id, id⟩) = mapNext (.replace ⟨d, k, id, id⟩) (exec i s) := by
  rcases hi with rfl | ⟨x, y, n, rfl⟩
  · rfl
  · exact execDrw_replace d k s x y n

/-- Only RET and CALL reach the stack. -/
theorem exec_replace_stack {i : Instr} (hret : i ≠ .ret) (hcall : ∀ nnn, i ≠ .call nnn) :
    exec i (s.replace ⟨d, k, id, id⟩) = mapNext (.replace ⟨d, k, id, id⟩) (exec i s) := by
  by_cases hi : i = .cls ∨ ∃ x y n, i = .drw x y n
  · exact exec_replace_of_cls_or_drw d k s hi
  · push Not at hi
    exact exec_replace d k id s hret hcall hi.1 hi.2

/-- Only CLS and DRW reach the framebuffer. -/
theorem exec_replace_fb {i : Instr} (hcls : i ≠ .cls) (hdrw : ∀ x y n, i ≠ .drw x y n) :
    exec i (s.replace ⟨id, id, f, id⟩) = mapNext (.replace ⟨id, id, f, id⟩) (exec i s) := by
  by_cases hi : i = .ret ∨ ∃ nnn, i = .call nnn
  · exact exec_replace_of_ret_or_call f id s hi
  · push Not at hi
    exact exec_replace id id f s hi.1 hi.2 hcls hdrw

end replace

/-- Settles O23: each clause about an instruction is the commutation with a constant replacement, and that RET
and CALL keep memory follows from replacing it by what it holds. -/
theorem stackAndFramebufferAreReachedOnlyByTheirInstructions :
    Obligations.StackAndFramebufferAreReachedOnlyByTheirInstructions := by
  intro i s t d k f h
  refine ⟨fun hret hcall => ?stack, fun hcls hdrw => ?fb, rfl, fun hi => ?mem,
    fun b => ?driver, rfl⟩
  case stack => exact (exec_replace_stack (fun _ => d) (fun _ => k) s hret hcall).trans (congrArg _ h)
  case fb => exact (exec_replace_fb (fun _ => f) s hcls hdrw).trans (congrArg _ h)
  case mem =>
    have hmem (m : Memory) : exec i { s with mem := m } = .next { t with mem := m } :=
      (exec_replace_of_ret_or_call id (fun _ => m) s hi).trans (congrArg _ h)
    have hkeep : Host.Outcome.next t = .next { t with mem := s.mem } := h.symm.trans (hmem s.mem)
    injection hkeep with hkeep
    exact ⟨hmem, fun a => by rw [hkeep]; rfl⟩
  case driver =>
    obtain ⟨h1, h2, h3⟩ := s.tick_keeps_stack_and_fb
    exact ⟨h1, h2, h3, s.key_keeps_stack_and_fb b⟩

end Sys2Proof.Machine

namespace Sys2Proof

/-! ## The selectors of families 8 and F (rules R69, R70) -/

theorem decode_of_aluFamily {w : Word} (h : w.toNat / 4096 = 8) :
    decode w = decodeAlu (fieldX w) (fieldY w) (fieldN w) := by
  simp [decode, toNat_fieldFamily, h]

theorem decode_of_miscFamily {w : Word} (h : w.toNat / 4096 = 0xF) :
    decode w = decodeMisc (fieldX w) (fieldKK w) := by
  simp [decode, toNat_fieldFamily, h]

theorem decode_aluFormat (x y n : Nibble) : decode (0x8#4 ++ x ++ y ++ n) = decodeAlu x y n := by
  simp [decode]

theorem decode_miscFormat (x : Nibble) (kk : Byte) : decode (0xF#4 ++ x ++ kk) = decodeMisc x kk := by
  simp [decode]

theorem exists_decodeAlu_eq_ok_iff (x y n : Nibble) :
    (∃ i, decodeAlu x y n = .ok i) ↔ n.toNat ∈ [0, 1, 2, 3, 4, 5, 6, 7, 0xE] := by
  unfold decodeAlu
  split <;> simp_all

theorem exists_decodeMisc_eq_ok_iff (x : Nibble) (kk : Byte) :
    (∃ i, decodeMisc x kk = .ok i) ↔
      kk.toNat ∈ [0x07, 0x0A, 0x15, 0x18, 0x1E, 0x29, 0x33, 0x55, 0x65] := by
  unfold decodeMisc
  split <;> simp_all

/-- A word is unrecognized exactly when it is no instruction. -/
theorem exists_decode_eq_error_iff (w : Word) : (∃ e, decode w = .error e) ↔ ¬ ∃ i, decode w = .ok i := by
  cases decode w <;> simp

/-- The low nibbles that rule R69 leaves out of its list. -/
theorem not_mem_aluSelectors_iff {n : Nat} (h : n < 16) :
    n ∉ [0, 1, 2, 3, 4, 5, 6, 7, 0xE] ↔ n ∈ [8, 9, 0xA, 0xB, 0xC, 0xD, 0xF] := by
  simp only [List.mem_cons, List.not_mem_nil, or_false]
  omega

theorem exists_decode_eq_ok_iff_of_aluFamily {w : Word} (h : w.toNat / 4096 = 8) :
    (∃ i, decode w = .ok i) ↔ w.toNat % 16 ∈ [0, 1, 2, 3, 4, 5, 6, 7, 0xE] := by
  rw [decode_of_aluFamily h, exists_decodeAlu_eq_ok_iff, toNat_fieldN]

theorem exists_decode_eq_error_iff_of_aluFamily {w : Word} (h : w.toNat / 4096 = 8) :
    (∃ e, decode w = .error e) ↔ w.toNat % 16 ∈ [8, 9, 0xA, 0xB, 0xC, 0xD, 0xF] := by
  rw [exists_decode_eq_error_iff, exists_decode_eq_ok_iff_of_aluFamily h,
    not_mem_aluSelectors_iff (Nat.mod_lt _ (by decide))]

theorem exists_decode_eq_ok_iff_of_miscFamily {w : Word} (h : w.toNat / 4096 = 0xF) :
    (∃ i, decode w = .ok i) ↔
      w.toNat % 256 ∈ [0x07, 0x0A, 0x15, 0x18, 0x1E, 0x29, 0x33, 0x55, 0x65] := by
  rw [decode_of_miscFamily h, exists_decodeMisc_eq_ok_iff, toNat_fieldKK]

/-- Settles O6: in either family decoding is decodeAlu or decodeMisc, whose one match is on the selector. -/
theorem aluAndMiscSelectorsAreRecognized : Obligations.AluAndMiscSelectorsAreRecognized := by
  intro w
  refine ⟨fun h => ⟨exists_decode_eq_ok_iff_of_aluFamily h, exists_decode_eq_error_iff_of_aluFamily h⟩,
    exists_decode_eq_ok_iff_of_miscFamily, fun x y n i h => ?alu, fun x kk i h => ?misc⟩
  case alu =>
    rw [decode_aluFormat] at h
    and_intros <;> rintro rfl <;> exact (Except.ok.inj h).symm
  case misc =>
    rw [decode_miscFormat] at h
    and_intros <;> rintro rfl <;> exact (Except.ok.inj h).symm

end Sys2Proof

namespace Sys2Proof.Machine

/-! ## Instructions that only set pc (rules R80, R82, R83) -/

theorem decode_jpFormat (nnn : Addr12) : decode (0x1#4 ++ nnn) = .ok (.jp nnn) := by
  simp [decode]

theorem decode_seImmFormat (x : Nibble) (kk : Byte) : decode (0x3#4 ++ x ++ kk) = .ok (.seImm x kk) := by
  simp [decode]

theorem decode_sneImmFormat (x : Nibble) (kk : Byte) : decode (0x4#4 ++ x ++ kk) = .ok (.sneImm x kk) := by
  simp [decode]

theorem exec_jp (nnn : Addr12) (s : State) : exec (.jp nnn) s = .next (s.setPc (target nnn)) := rfl

/-- A skip after the fetch's advance, as one write of pc. -/
theorem State.advance_skipIf (s : State) (p : Prop) [Decidable p] :
    s.advance.skipIf (decide p) = s.setPc (if p then s.pc + 4 else s.pc + 2) := by
  by_cases h : p
  · have hadd : s.pc + 2 + 2 = s.pc + 4 := BitVec.add_assoc s.pc 2 2
    rw [decide_eq_true h, State.skipIf_true, if_pos h, ← hadd]
    rfl
  · rw [decide_eq_false h, State.skipIf_false, if_neg h]
    rfl

theorem exec_seImm (x : Nibble) (kk : Byte) (s : State) :
    exec (.seImm x kk) s = .next (s.setPc (if s.readV x = kk then s.pc + 4 else s.pc + 2)) :=
  congrArg _ (s.advance_skipIf _)

theorem exec_sneImm (x : Nibble) (kk : Byte) (s : State) :
    exec (.sneImm x kk) s = .next (s.setPc (if s.readV x ≠ kk then s.pc + 4 else s.pc + 2)) :=
  congrArg _ (s.advance_skipIf _)

theorem Unchanged.setPc (s : State) (a : Word) : Unchanged s (s.setPc a) noReg [] :=
  .of_fields (fun r _ => s.setPc_readV a r) (.inr rfl) (.inr ⟨rfl, rfl⟩) (.inr rfl) (.inr rfl) (.inr rfl)
    (.inr rfl) (.inr rfl) (.inr rfl)

/-- With pc set past the last word the next step takes the fetch fault (rules R65, R124). -/
theorem step_setPc_past {s : State} {a : Word} (hrun : s.run = .running) (ha : 0xFFF ≤ a.toNat) :
    ∃ u, step (s.setPc a) = .next u ∧ u.faultOut = some ⟨.fetchOutOfRange, a, none, a.toNat⟩ :=
  ⟨(s.setPc a).fetchFault, step_of_fetch_fault hrun (by rw [State.setPc_pc]; omega), rfl⟩

/-- Settles O30: the jump is one write of pc, which at its own address writes what pc holds. -/
theorem jumpSetsPc : Obligations.JumpSetsPc := by
  intro s nnn
  refine ⟨decode_jpFormat nnn, _, exec_jp nnn s, toNat_target nnn, .setPc s _, fun hself => ?self,
    fun hlast hrun => ?last⟩
  case self =>
    have htarget : target nnn = s.pc := BitVec.eq_of_toNat_eq ((toNat_target nnn).trans hself)
    rw [htarget]
    rfl
  case last =>
    obtain rfl : nnn = 0xFFF := BitVec.eq_of_toNat_eq hlast
    exact step_setPc_past hrun (toNat_target 0xFFF).ge

/-- Settles O31: either skip is one write of pc, whose value depends on the registers and pc alone. -/
theorem skipImmediateOnEqualAndNotEqual : Obligations.SkipImmediateOnEqualAndNotEqual := by
  intro s x kk
  refine ⟨decode_seImmFormat x kk, decode_sneImmFormat x kk, ?_⟩
  rintro i (rfl | rfl)
  · exact ⟨_, exec_seImm x kk s, fun _ => rfl, nofun, .setPc s _, fun m => exec_seImm x kk { s with mem := m },
      step_setPc_past⟩
  · exact ⟨_, exec_sneImm x kk s, nofun, fun _ => rfl, .setPc s _, fun m => exec_sneImm x kk { s with mem := m },
      step_setPc_past⟩

end Sys2Proof.Machine

namespace Sys2Proof.Machine

/-! ## Instructions that write one register and no flag (rules R91 to R93) -/

theorem decode_ldImmFormat (x : Nibble) (kk : Byte) : decode (0x6#4 ++ x ++ kk) = .ok (.ldImm x kk) := by
  simp [decode]

theorem decode_addImmFormat (x : Nibble) (kk : Byte) : decode (0x7#4 ++ x ++ kk) = .ok (.addImm x kk) := by
  simp [decode]

theorem exec_ldImm (x : Nibble) (kk : Byte) (s : State) : exec (.ldImm x kk) s = .next (s.putV x kk) := rfl

theorem exec_addImm (x : Nibble) (kk : Byte) (s : State) :
    exec (.addImm x kk) s = .next (s.putV x (wrapAdd (s.readV x) kk)) := rfl

theorem exec_ldReg (x y : Nibble) (s : State) : exec (.ldReg x y) s = .next (s.putV x (s.readV y)) := rfl

@[simp] theorem State.readV_putV_same (s : State) (x : Nibble) (b : Byte) : (s.putV x b).readV x = b := by
  rw [State.readV_putV, if_pos rfl]

/-- The frame of every flagless result. -/
theorem Unchanged.putV (s : State) (x : Nibble) (b : Byte) : Unchanged s (s.putV x b) (onlyReg x) [] := by
  refine .of_fields (fun r hr => ?register) (.inr rfl) (.inr ⟨rfl, rfl⟩) (.inr rfl) (.inr rfl) (.inr rfl)
    (.inr rfl) (.inr rfl) (.inr rfl)
  case register => rw [State.readV_putV, if_neg (onlyReg_eq_false.mp hr)]

/-- Settles O34: each of the three is one putV, and only the value written differs. -/
theorem loadAddAndCopyWriteOneRegister : Obligations.LoadAddAndCopyWriteOneRegister := by
  intro s x y kk
  refine ⟨decode_ldImmFormat x kk, decode_addImmFormat x kk, decode_aluFormat x y 0x0, ?load, ?add, ?copy⟩
  case load => exact ⟨_, exec_ldImm x kk s, s.readV_putV_same x _, s.putV_pc x _, .putV s x _⟩
  case add =>
    have hsum : ((s.putV x (wrapAdd (s.readV x) kk)).readV x).toNat = ((s.readV x).toNat + kk.toNat) % 256 := by
      rw [State.readV_putV_same, toNat_wrapAdd]
    exact ⟨_, exec_addImm x kk s, hsum, s.putV_pc x _, .putV s x _⟩
  case copy => exact ⟨_, exec_ldReg x y s, s.readV_putV_same x _, s.putV_pc x _, .putV s x _⟩

end Sys2Proof.Machine

namespace Sys2Proof.Machine

/-! ## Instructions that only set I (rules R104, R106) -/

theorem decode_ldIFormat (nnn : Addr12) : decode (0xA#4 ++ nnn) = .ok (.ldI nnn) := by
  simp [decode]

theorem exec_ldI (nnn : Addr12) (s : State) : exec (.ldI nnn) s = .next (s.advance.setI (target nnn)) := rfl

theorem exec_ldF (x : Nibble) (s : State) :
    exec (.ldF x) s = .next (s.advance.setI (glyphAddress (s.readV x))) := rfl

/-- The frame of every instruction whose one result is I. -/
theorem Unchanged.advance_setI (s : State) (a : Word) : Unchanged s (s.advance.setI a) noReg [.i] :=
  .of_fields (fun _ _ => rfl) (.inl (by decide)) (.inr ⟨rfl, rfl⟩) (.inr rfl) (.inr rfl) (.inr rfl)
    (.inr rfl) (.inr rfl) (.inr rfl)

/-- Settles O40: each is one write of I after the advance, of a value that fits in 16 bits without a wrap. -/
theorem loadIAndGlyphAddressSetI : Obligations.LoadIAndGlyphAddressSetI := by
  intro s x nnn
  refine ⟨decode_ldIFormat nnn, decode_miscFormat x 0x29, ?address, ?glyph⟩
  case address => exact ⟨_, exec_ldI nnn s, toNat_target nnn, rfl, .advance_setI s _⟩
  case glyph => exact ⟨_, exec_ldF x s, toNat_glyphAddress (s.readV x), rfl, .advance_setI s _⟩

end Sys2Proof.Machine

namespace Sys2Proof.Machine

/-! ## The display instructions (rules R110, R112, R115, R116) -/

theorem exec_cls (s : State) : exec .cls s = .next s.advance.clearFb := rfl

/-- After a clear every row is zero (rule R110). -/
theorem State.row_clearFb (s : State) (r : Fin 32) : s.clearFb.fb[r] = 0 := by
  rw [State.clearFb_fb, Fin.getElem_fin, Vector.getElem_replicate]

/-- The frame of CLS. -/
theorem Unchanged.advance_clearFb (s : State) : Unchanged s s.advance.clearFb noReg [.fb] :=
  .of_fields (fun _ _ => rfl) (.inr rfl) (.inr ⟨rfl, rfl⟩) (.inr rfl) (.inr rfl) (.inr rfl)
    (.inl (by decide)) (.inr rfl) (.inr rfl)

/-- Settles O48: CLS is a clear after the advance, and a row that was dark is zero before and after. -/
theorem clearDarkensEveryRow : Obligations.ClearDarkensEveryRow := by
  intro s
  have hzero (r : Fin 32) : s.advance.clearFb.fb[r] = 0 := s.advance.row_clearFb r
  exact ⟨by decide, _, exec_cls s, hzero, rfl, .advance_clearFb s, fun hdark r => (hzero r).trans (hdark r).symm⟩

theorem exec_drw_of_inRange {x y n : Nibble} {s : State} (h : n = 0 ∨ s.i.toNat + n.toNat ≤ 4096) :
    exec (.drw x y n) s = .next (s.advance.draw x y (s.mem.readBytes s.i.toNat n.toNat)) :=
  execDrw_of_inRange h

theorem collisionFlag_eq_one_iff (c : Bool) : collisionFlag c = 1 ↔ c = true := by
  cases c <;> decide

theorem collisionFlag_eq_zero_iff (c : Bool) : collisionFlag c = 0 ↔ ¬ c = true := by
  cases c <;> decide

theorem State.readV_flag_draw (s : State) (x y : Nibble) (bs : List Byte) :
    (s.draw x y bs).readV flagReg =
      collisionFlag (drawSprite (s.readV x) (s.readV y) 0 bs s.fb).2 := by
  rw [State.readV_draw, if_pos rfl]

/-- A row is not zero exactly when some column of it is lit. -/
theorem Row.ne_zero_iff_lit (a : Row) : a ≠ 0 ↔ ∃ c : Fin 64, a.getLsbD (63 - c.val) = true := by
  constructor
  · intro hne
    by_contra hdark
    push Not at hdark
    refine hne (BitVec.eq_of_getLsbD_eq fun i hi => ?_)
    have hcol := hdark ⟨63 - i, by omega⟩
    rw [show 63 - (63 - i) = i by omega] at hcol
    simpa using hcol
  · rintro ⟨c, hlit⟩ rfl
    simp at hlit

/-- Two rows share a lit pixel exactly when XORing the second into the first turns a lit pixel off. -/
theorem Row.and_ne_zero_iff_xor_turns_off (a b : Row) :
    a &&& b ≠ 0 ↔
      ∃ c : Fin 64, a.getLsbD (63 - c.val) = true ∧ (a ^^^ b).getLsbD (63 - c.val) = false := by
  rw [Row.ne_zero_iff_lit]
  refine exists_congr fun c => ?_
  rw [BitVec.getLsbD_and, BitVec.getLsbD_xor]
  cases a.getLsbD (63 - c.val) <;> cases b.getLsbD (63 - c.val) <;> decide

/-- The collision bit is set exactly when the draw turns a lit pixel off (rule R112): a row that no sprite row
goes to keeps its pixels, and any other is XORed once. -/
theorem drawSprite_collided_iff_turns_off (x y : Byte) (bs : List Byte) (fb : Vector Row 32)
    (hlen : bs.length ≤ 32) :
    (drawSprite x y 0 bs fb).2 = true ↔
      ∃ (c : Fin 64) (r : Fin 32), pixel fb c r = true ∧ pixel (drawSprite x y 0 bs fb).1 c r = false := by
  have hrow {j : Nat} (hj : j < bs.length) {r : Fin 32} (ht : spriteTarget y j = r) :
      (drawSprite x y 0 bs fb).1[r] = fb[r] ^^^ spriteRow bs[j] x :=
    drawSprite_row_of_target (by rwa [Nat.zero_add]) fb hj hlen
  rw [drawSprite_collided_row x y bs fb hlen]
  constructor
  · rintro ⟨j, hj, r, ht, hmeet⟩
    obtain ⟨c, hlit, hdark⟩ := (Row.and_ne_zero_iff_xor_turns_off _ _).mp hmeet
    exact ⟨c, r, hlit, by rwa [pixel, hrow hj ht]⟩
  · rintro ⟨c, r, hlit, hdark⟩
    by_cases hhit : ∃ j < bs.length, spriteTarget y j = r
    case pos =>
      obtain ⟨j, hj, ht⟩ := hhit
      rw [pixel, hrow hj ht] at hdark
      exact ⟨j, hj, r, ht, (Row.and_ne_zero_iff_xor_turns_off _ _).mpr ⟨c, hlit, hdark⟩⟩
    case neg =>
      push Not at hhit
      have hkept : (drawSprite x y 0 bs fb).1[r] = fb[r] :=
        drawSprite_row_miss x y bs 0 fb r fun j hj => by rw [Nat.zero_add]; exact hhit j hj
      rw [pixel, hkept] at hdark
      exact absurd (hlit.symm.trans hdark) (by decide)

/-- The collision bit of a draw of n bytes of memory, row by row (rule R112). -/
theorem drawSprite_readBytes_collided (x y : Byte) (m : Memory) (a n : Nat) (fb : Vector Row 32) (hn : n ≤ 32) :
    (drawSprite x y 0 (m.readBytes a n) fb).2 = true ↔
      ∃ k < n, fb[spriteTarget y k] &&& spriteRow (m.read (a + k)) x ≠ 0 := by
  rw [drawSprite_collided x y _ 0 fb (by rwa [Memory.length_readBytes])]
  simp [Memory.getElem_readBytes]

/-- Settles O51: VF is the collision bit, which is set exactly when a lit pixel was turned off. -/
theorem collisionMeansALitPixelTurnedOff : Obligations.CollisionMeansALitPixelTurnedOff := by
  intro s t x y n hrange hexec
  have hn : n.toNat ≤ 32 := by have := n.isLt; omega
  have hdraw : s.advance.draw x y (s.mem.readBytes s.i.toNat n.toNat) = t :=
    Host.Outcome.next.inj ((exec_drw_of_inRange hrange).symm.trans hexec)
  subst hdraw
  have hoff := drawSprite_collided_iff_turns_off (s.readV x) (s.readV y) (s.mem.readBytes s.i.toNat n.toNat)
    s.fb (by rwa [Memory.length_readBytes])
  rw [State.readV_flag_draw, collisionFlag_eq_one_iff, collisionFlag_eq_zero_iff]
  exact ⟨hoff, not_congr hoff, drawSprite_readBytes_collided _ _ s.mem _ _ s.fb hn⟩

end Sys2Proof.Machine

namespace Sys2Proof

/-! ## Encode and decode (rules R60, R66) -/

theorem decode_callFormat (nnn : Addr12) : decode (0x2#4 ++ nnn) = .ok (.call nnn) := by
  simp [decode]

theorem decode_seRegFormat (x y : Nibble) : decode (0x5#4 ++ x ++ y ++ 0x0#4) = .ok (.seReg x y) := by
  simp [decode]

theorem decode_sneRegFormat (x y : Nibble) : decode (0x9#4 ++ x ++ y ++ 0x0#4) = .ok (.sneReg x y) := by
  simp [decode]

theorem decode_jpV0Format (nnn : Addr12) : decode (0xB#4 ++ nnn) = .ok (.jpV0 nnn) := by
  simp [decode]

theorem decode_rndFormat (x : Nibble) (kk : Byte) : decode (0xC#4 ++ x ++ kk) = .ok (.rnd x kk) := by
  simp [decode]

theorem decode_drwFormat (x y n : Nibble) : decode (0xD#4 ++ x ++ y ++ n) = .ok (.drw x y n) := by
  simp [decode]

/-- Decoding the word of an instruction gives the instruction back. -/
@[simp] theorem decode_encode (i : Instr) : decode (encode i) = .ok i := by
  cases i with
  | cls | ret => rfl
  | jp nnn => exact Machine.decode_jpFormat nnn
  | call nnn => exact decode_callFormat nnn
  | seImm x kk => exact Machine.decode_seImmFormat x kk
  | sneImm x kk => exact Machine.decode_sneImmFormat x kk
  | seReg x y => exact decode_seRegFormat x y
  | ldImm x kk => exact Machine.decode_ldImmFormat x kk
  | addImm x kk => exact Machine.decode_addImmFormat x kk
  | ldReg x y | orReg x y | andReg x y | xorReg x y | addReg x y | sub x y | shr x y | subn x y | shl x y =>
    exact decode_aluFormat x y _
  | sneReg x y => exact decode_sneRegFormat x y
  | ldI nnn => exact Machine.decode_ldIFormat nnn
  | jpV0 nnn => exact decode_jpV0Format nnn
  | rnd x kk => exact decode_rndFormat x kk
  | drw x y n => exact decode_drwFormat x y n
  | ldVxDt x | ldVxK x | ldDtVx x | ldStVx x | addI x | ldF x | ldB x | ldMemVx x | ldVxMem x =>
    exact decode_miscFormat x _

/-- Every instruction is well-formed, since its fields have the widths of rule R60 in their types. -/
theorem Instr.wellFormed_eq_true (i : Instr) : i.wellFormed = true := by
  cases i with
  | cls => exact Laws.WellFormed.cls
  | ret => exact Laws.WellFormed.ret
  | jp nnn => exact Laws.WellFormed.jp nnn
  | call nnn => exact Laws.WellFormed.call nnn
  | seImm x kk => exact Laws.WellFormed.seImm x kk
  | sneImm x kk => exact Laws.WellFormed.sneImm x kk
  | seReg x y => exact Laws.WellFormed.seReg x y
  | ldImm x kk => exact Laws.WellFormed.ldImm x kk
  | addImm x kk => exact Laws.WellFormed.addImm x kk
  | ldReg x y => exact Laws.WellFormed.ldReg x y
  | orReg x y => exact Laws.WellFormed.orReg x y
  | andReg x y => exact Laws.WellFormed.andReg x y
  | xorReg x y => exact Laws.WellFormed.xorReg x y
  | addReg x y => exact Laws.WellFormed.addReg x y
  | sub x y => exact Laws.WellFormed.sub x y
  | shr x y => exact Laws.WellFormed.shr x y
  | subn x y => exact Laws.WellFormed.subn x y
  | shl x y => exact Laws.WellFormed.shl x y
  | sneReg x y => exact Laws.WellFormed.sneReg x y
  | ldI nnn => exact Laws.WellFormed.ldI nnn
  | jpV0 nnn => exact Laws.WellFormed.jpV0 nnn
  | rnd x kk => exact Laws.WellFormed.rnd x kk
  | drw x y n => exact Laws.WellFormed.drw x y n
  | ldVxDt x => exact Laws.WellFormed.ldVxDt x
  | ldVxK x => exact Laws.WellFormed.ldVxK x
  | ldDtVx x => exact Laws.WellFormed.ldDtVx x
  | ldStVx x => exact Laws.WellFormed.ldStVx x
  | addI x => exact Laws.WellFormed.addI x
  | ldF x => exact Laws.WellFormed.ldF x
  | ldB x => exact Laws.WellFormed.ldB x
  | ldMemVx x => exact Laws.WellFormed.ldMemVx x
  | ldVxMem x => exact Laws.WellFormed.ldVxMem x

/-- Settles O1: `decode_encode`, read once on the word and once on its two bytes. -/
theorem decodeOfEncodeIsTheInstruction : Obligations.DecodeOfEncodeIsTheInstruction := by
  intro i rest
  have hbytes : decodeBytes (encodeBytes i ++ rest) = some (decode (encode i), rest) :=
    decodeBytes_high_low (encode i) rest
  exact ⟨i.wellFormed_eq_true, decode_encode i, by rw [hbytes, decode_encode]⟩

/-- A field read as a number is the field. -/
theorem eq_ofNat_of_toNat_eq {k n : Nat} {b : BitVec k} (h : b.toNat = n) : b = .ofNat k n := by
  rw [← h, BitVec.ofNat_toNat, BitVec.setWidth_eq]

theorem encode_of_decodeZero {w : Word} {i : Instr} (h : decodeZero w = .ok i) : encode i = w := by
  unfold decodeZero at h
  split at h
  · cases h; exact Eq.symm ‹_›
  · split at h
    · cases h; exact Eq.symm ‹_›
    · cases h

theorem encode_of_decodeAlu {x y n : Nibble} {i : Instr} (h : decodeAlu x y n = .ok i) :
    encode i = 0x8#4 ++ x ++ y ++ n := by
  unfold decodeAlu at h
  split at h <;> cases h <;> (rename_i hn; rw [encode, eq_ofNat_of_toNat_eq hn])

theorem encode_of_decodeMisc {x : Nibble} {kk : Byte} {i : Instr} (h : decodeMisc x kk = .ok i) :
    encode i = 0xF#4 ++ x ++ kk := by
  unfold decodeMisc at h
  split at h <;> cases h <;> (rename_i hkk; rw [encode, eq_ofNat_of_toNat_eq hkk])

section rebuild
variable {w : Word} {f : Nat}

theorem nnn_of_family (h : (fieldFamily w).toNat = f) : BitVec.ofNat 4 f ++ fieldNNN w = w := by
  rw [← eq_ofNat_of_toNat_eq h, family_append_nnn]

theorem xkk_of_family (h : (fieldFamily w).toNat = f) : BitVec.ofNat 4 f ++ fieldX w ++ fieldKK w = w := by
  rw [← eq_ofNat_of_toNat_eq h, family_append_xkk]

theorem xyn_of_family (h : (fieldFamily w).toNat = f) :
    BitVec.ofNat 4 f ++ fieldX w ++ fieldY w ++ fieldN w = w := by
  rw [← eq_ofNat_of_toNat_eq h, family_append_xyn]

end rebuild

/-- The word of the instruction a word decodes to is the word: the decoder keeps every field. -/
theorem encode_of_decode {w : Word} {i : Instr} (h : decode w = .ok i) : encode i = w := by
  have hlt := (fieldFamily w).isLt
  unfold decode at h
  split at h
  case h_1 => exact encode_of_decodeZero h
  case h_6 hf | h_10 hf =>
    split at h
    case isTrue hn =>
      cases h
      have hw := xyn_of_family hf
      rwa [hn] at hw
    case isFalse => cases h
  case h_9 hf => exact (encode_of_decodeAlu h).trans (xyn_of_family hf)
  case h_14 hf => cases h; exact xyn_of_family hf
  case h_15 => cases h
  case h_16 =>
    have hf : (fieldFamily w).toNat = 0xF := by grind
    exact (encode_of_decodeMisc h).trans (xkk_of_family hf)
  case h_2 hf | h_3 hf | h_11 hf | h_12 hf => cases h; exact nnn_of_family hf
  case h_4 hf | h_5 hf | h_7 hf | h_8 hf | h_13 hf => cases h; exact xkk_of_family hf

/-- Settles O2: the decoder keeps every field of a word it recognizes. -/
theorem encodeOfDecodeIsTheWord : Obligations.EncodeOfDecodeIsTheWord :=
  fun _ _ => encode_of_decode

/-! ## The listing of a word (rules R76, R77) -/

theorem Line.instr_shr (x y : Nibble) : Line.instr ⟨.shr, shiftOps x y⟩ = some (.shr x y) := by
  by_cases hy : y = 0
  · rw [hy, shiftOps_zero]; simp [Line.instr, regOp]
  · rw [shiftOps_of_ne hy]; simp [Line.instr, regOp]

theorem Line.instr_shl (x y : Nibble) : Line.instr ⟨.shl, shiftOps x y⟩ = some (.shl x y) := by
  by_cases hy : y = 0
  · rw [hy, shiftOps_zero]; simp [Line.instr, regOp]
  · rw [shiftOps_of_ne hy]; simp [Line.instr, regOp]

/-- The line that spells an instruction names that instruction. -/
@[simp] theorem Line.instr_line (i : Instr) : i.line.instr = some i := by
  cases i with
  | shr x y => exact Line.instr_shr x y
  | shl x y => exact Line.instr_shl x y
  | _ => simp [Instr.line, Line.instr, regOp]

/-- The line of an instruction assembles to the instruction's word. -/
theorem Line.assemble_line (i : Instr) : i.line.assemble = some (encode i) := by
  have hwf : i.line.wellFormed = true := i.wellFormed_eq_true
  rw [Line.assemble, if_pos hwf, Line.instr_line]

theorem disassemble_of_ok {w : Word} {i : Instr} (h : decode w = .ok i) : disassemble w = i.line := by
  rw [disassemble, h]

theorem disassemble_of_error {w : Word} {e : Unrecognized} (h : decode w = .error e) :
    disassemble w = ⟨.dw, [.num w.toNat]⟩ := by
  rw [disassemble, h]

theorem Line.dataWord_dw {w : Word} {e : Unrecognized} (h : decode w = .error e) :
    Line.dataWord ⟨.dw, [.num w.toNat]⟩ = some w := by
  simp [Line.dataWord, h]

/-- The `DW` line of any word is well-formed. -/
theorem Line.wellFormed_dw (w : Word) : Line.wellFormed ⟨.dw, [.num w.toNat]⟩ = true :=
  decide_eq_true w.isLt

/-- Settles O3: a recognized word is spelled by its instruction's line, any other by its `DW` line. -/
theorem assembleOfDisassembleIsTheWord : Obligations.AssembleOfDisassembleIsTheWord := by
  intro w
  cases hd : decode w with
  | ok i =>
    rw [disassemble_of_ok hd, Line.assemble_line, encode_of_decode hd]
    exact ⟨i.wellFormed_eq_true, rfl⟩
  | error e =>
    have hwf := Line.wellFormed_dw w
    rw [disassemble_of_error hd]
    exact ⟨hwf, (if_pos hwf).trans (Line.dataWord_dw hd)⟩

/-! ## The unrecognized words (rules R68 to R73) -/

section families
variable {w : Word}

theorem exists_decode_eq_error_iff_of_zeroFamily (h : w.toNat / 4096 = 0) :
    (∃ e, decode w = .error e) ↔ w.toNat ≠ 0x00E0 ∧ w.toNat ≠ 0x00EE := by
  have hd : decode w = decodeZero w := by simp [decode, toNat_fieldFamily, h]
  have hcls : w = 0x00E0#16 ↔ w.toNat = 0x00E0 := BitVec.toNat_inj.symm
  have hret : w = 0x00EE#16 ↔ w.toNat = 0x00EE := BitVec.toNat_inj.symm
  rw [hd, decodeZero]
  split_ifs <;> simp_all

theorem exists_decode_eq_error_iff_of_skipFamily (h : w.toNat / 4096 = 5 ∨ w.toNat / 4096 = 9) :
    (∃ e, decode w = .error e) ↔ w.toNat % 16 ≠ 0 := by
  have hn : fieldN w = 0#4 ↔ w.toNat % 16 = 0 := by rw [← toNat_fieldN, ← BitVec.toNat_inj]; rfl
  rw [ne_eq, ← not_congr hn]
  by_cases hz : fieldN w = 0#4 <;> rcases h with h | h <;> simp [decode, toNat_fieldFamily, h, hz]

theorem exists_decode_eq_error_of_familyE (h : w.toNat / 4096 = 0xE) : ∃ e, decode w = .error e :=
  ⟨.familyE, by simp [decode, toNat_fieldFamily, h]⟩

theorem exists_decode_eq_error_iff_of_miscFamily (h : w.toNat / 4096 = 0xF) :
    (∃ e, decode w = .error e) ↔
      w.toNat % 256 ∉ [0x07, 0x0A, 0x15, 0x18, 0x1E, 0x29, 0x33, 0x55, 0x65] := by
  rw [exists_decode_eq_error_iff, exists_decode_eq_ok_iff_of_miscFamily h]

/-- Families 1 to 4, 6, 7 and A to D: every word is an instruction. -/
theorem not_exists_decode_eq_error_of_wholeFamily
    (h : w.toNat / 4096 ∈ [1, 2, 3, 4, 6, 7, 0xA, 0xB, 0xC, 0xD]) : ¬ ∃ e, decode w = .error e := by
  simp only [List.mem_cons, List.not_mem_nil, or_false] at h
  rcases h with h | h | h | h | h | h | h | h | h | h <;> simp [decode, toNat_fieldFamily, h]

end families

/-- Settles O5: family by family, with the one selector that decides in the family. -/
theorem unrecognizedWordsAreTheListedOnes : Obligations.UnrecognizedWordsAreTheListedOnes := by
  intro w
  have hlt : w.toNat / 4096 < 16 := by have := w.isLt; omega
  by_cases h0 : w.toNat / 4096 = 0
  · simp [exists_decode_eq_error_iff_of_zeroFamily h0, h0]
  by_cases h59 : w.toNat / 4096 = 5 ∨ w.toNat / 4096 = 9
  · rw [exists_decode_eq_error_iff_of_skipFamily h59]; omega
  by_cases h8 : w.toNat / 4096 = 8
  · rw [exists_decode_eq_error_iff_of_aluFamily h8]; simp [h8]
  by_cases hE : w.toNat / 4096 = 0xE
  · simp [exists_decode_eq_error_of_familyE hE, hE]
  by_cases hF : w.toNat / 4096 = 0xF
  · rw [exists_decode_eq_error_iff_of_miscFamily hF]; simp [hF]
  have hwhole : w.toNat / 4096 ∈ [1, 2, 3, 4, 6, 7, 0xA, 0xB, 0xC, 0xD] := by
    simp only [List.mem_cons, List.not_mem_nil, or_false]; omega
  refine iff_of_false (not_exists_decode_eq_error_of_wholeFamily hwhole) ?_
  tauto

/-- Settles O7: each word is decoded. -/
theorem wordsOfTheVectorsDecode : Obligations.WordsOfTheVectorsDecode := by
  unfold Obligations.WordsOfTheVectorsDecode
  and_intros <;> rfl


/-! ## The opcode table (rule R67) -/

/-- The rows by mask: what their patterns hold in the fields that the mask keeps. -/
theorem opcodeTable_rows_by_mask : ∀ r ∈ opcodeTable,
    (r.mask = 0xFFFF ∧ (r.pattern = 0x00E0 ∨ r.pattern = 0x00EE)) ∨
    (r.mask = 0xF000 ∧ (fieldFamily r.pattern).toNat ∈ [1, 2, 3, 4, 6, 7, 0xA, 0xB, 0xC, 0xD]) ∨
    (r.mask = 0xF00F ∧
      ((fieldFamily r.pattern).toNat ∈ [5, 9] ∧ (fieldN r.pattern).toNat = 0 ∨
        (fieldFamily r.pattern).toNat = 8 ∧ (fieldN r.pattern).toNat ∈ [0, 1, 2, 3, 4, 5, 6, 7, 0xE])) ∨
    (r.mask = 0xF0FF ∧ (fieldFamily r.pattern).toNat = 0xF ∧
      (fieldKK r.pattern).toNat ∈ [0x07, 0x0A, 0x15, 0x18, 0x1E, 0x29, 0x33, 0x55, 0x65]) := by decide

/-- Two different rows differ in a bit that both masks keep. -/
theorem opcodeTable_pairwise_disjoint :
    opcodeTable.Pairwise fun p q => p.pattern &&& q.mask ≠ q.pattern &&& p.mask := by decide

theorem opcodeTable_mnemonics_nodup : (opcodeTable.map OpcodeRow.mnemonic).Nodup := by decide

/-- A field of a word that the mask keeps whole. -/
theorem fieldFamily_and_mask (w : Word) {mask : Word} (h : fieldFamily mask = .allOnes 4) :
    fieldFamily (w &&& mask) = fieldFamily w := by
  rw [fieldFamily, BitVec.extractLsb'_and, ← fieldFamily, ← fieldFamily, h, BitVec.and_allOnes]

theorem fieldN_and_mask (w : Word) {mask : Word} (h : fieldN mask = .allOnes 4) :
    fieldN (w &&& mask) = fieldN w := by
  rw [fieldN, BitVec.extractLsb'_and, ← fieldN, ← fieldN, h, BitVec.and_allOnes]

theorem fieldKK_and_mask (w : Word) {mask : Word} (h : fieldKK mask = .allOnes 8) :
    fieldKK (w &&& mask) = fieldKK w := by
  rw [fieldKK, BitVec.extractLsb'_and, ← fieldKK, ← fieldKK, h, BitVec.and_allOnes]

/-- A word that matches a row of the table decodes. -/
theorem not_exists_decode_eq_error_of_matches {r : OpcodeRow} {w : Word} (hr : r ∈ opcodeTable)
    (hw : r.matches w = true) : ¬ ∃ e, decode w = .error e := by
  have hpattern := (OpcodeRow.matches_iff r w).mp hw
  rcases opcodeTable_rows_by_mask r hr with ⟨hm, hp⟩ | ⟨hm, hp⟩ | ⟨hm, hp⟩ | ⟨hm, hp⟩
  case inl =>
    have hall : r.mask = .allOnes 16 := hm
    rw [hall, BitVec.and_allOnes] at hpattern
    rcases hp with hp | hp <;> (rw [hpattern, hp]; rintro ⟨e, he⟩; cases he)
  case inr.inl =>
    rw [← hpattern, fieldFamily_and_mask w (by rw [hm]; rfl), toNat_fieldFamily] at hp
    exact not_exists_decode_eq_error_of_wholeFamily hp
  case inr.inr.inl =>
    rw [← hpattern, fieldFamily_and_mask w (by rw [hm]; rfl), fieldN_and_mask w (by rw [hm]; rfl),
      toNat_fieldFamily, toNat_fieldN] at hp
    rcases hp with ⟨hf, hn⟩ | ⟨hf, hn⟩
    · rw [exists_decode_eq_error_iff_of_skipFamily (by simpa using hf)]
      exact not_not_intro hn
    · rw [exists_decode_eq_error_iff, exists_decode_eq_ok_iff_of_aluFamily hf]
      exact not_not_intro hn
  case inr.inr.inr =>
    rw [← hpattern, fieldFamily_and_mask w (by rw [hm]; rfl), fieldKK_and_mask w (by rw [hm]; rfl),
      toNat_fieldFamily, toNat_fieldKK] at hp
    rw [exists_decode_eq_error_iff_of_miscFamily hp.1]
    exact not_not_intro hp.2

theorem tableRow_statement (i : Instr) : Laws.TableRow.Statement i := by
  cases i with
  | cls => exact Laws.TableRow.cls
  | ret => exact Laws.TableRow.ret
  | jp nnn => exact Laws.TableRow.jp nnn
  | call nnn => exact Laws.TableRow.call nnn
  | seImm x kk => exact Laws.TableRow.seImm x kk
  | sneImm x kk => exact Laws.TableRow.sneImm x kk
  | seReg x y => exact Laws.TableRow.seReg x y
  | ldImm x kk => exact Laws.TableRow.ldImm x kk
  | addImm x kk => exact Laws.TableRow.addImm x kk
  | ldReg x y => exact Laws.TableRow.ldReg x y
  | orReg x y => exact Laws.TableRow.orReg x y
  | andReg x y => exact Laws.TableRow.andReg x y
  | xorReg x y => exact Laws.TableRow.xorReg x y
  | addReg x y => exact Laws.TableRow.addReg x y
  | sub x y => exact Laws.TableRow.sub x y
  | shr x y => exact Laws.TableRow.shr x y
  | subn x y => exact Laws.TableRow.subn x y
  | shl x y => exact Laws.TableRow.shl x y
  | sneReg x y => exact Laws.TableRow.sneReg x y
  | ldI nnn => exact Laws.TableRow.ldI nnn
  | jpV0 nnn => exact Laws.TableRow.jpV0 nnn
  | rnd x kk => exact Laws.TableRow.rnd x kk
  | drw x y n => exact Laws.TableRow.drw x y n
  | ldVxDt x => exact Laws.TableRow.ldVxDt x
  | ldVxK x => exact Laws.TableRow.ldVxK x
  | ldDtVx x => exact Laws.TableRow.ldDtVx x
  | ldStVx x => exact Laws.TableRow.ldStVx x
  | addI x => exact Laws.TableRow.addI x
  | ldF x => exact Laws.TableRow.ldF x
  | ldB x => exact Laws.TableRow.ldB x
  | ldMemVx x => exact Laws.TableRow.ldMemVx x
  | ldVxMem x => exact Laws.TableRow.ldVxMem x

/-- No word matches two different rows: they would agree on the bits that both masks keep. -/
theorem opcodeTable_pairwise_not_both_match (w : Word) :
    opcodeTable.Pairwise fun p q => ¬ (p.matches w = true ∧ q.matches w = true) := by
  refine opcodeTable_pairwise_disjoint.imp fun {p q} hdiff ⟨hp, hq⟩ => hdiff ?_
  rw [OpcodeRow.matches_iff] at hp hq
  rw [← hp, ← hq, BitVec.and_assoc, BitVec.and_assoc, BitVec.and_comm p.mask]

/-- Of elements no two of which satisfy a test, the filter keeps the one that does. -/
theorem filter_eq_singleton {α : Type} {l : List α} {test : α → Bool} {a : α}
    (hl : l.Pairwise fun p q => ¬ (test p = true ∧ test q = true)) (ha : a ∈ l) (hta : test a = true) :
    l.filter test = [a] := by
  have hmem : a ∈ l.filter test := List.mem_filter.mpr ⟨ha, hta⟩
  have htest : ∀ b ∈ l.filter test, test b = true := fun b hb => (List.mem_filter.mp hb).2
  have hpair := hl.filter test
  match hf : l.filter test with
  | [] => rw [hf] at hmem; cases hmem
  | [b] => rw [hf] at hmem; rw [List.mem_singleton.mp hmem]
  | b :: c :: bs =>
    rw [hf] at htest hpair
    have hb : test b = true := htest b (by simp)
    have hc : test c = true := htest c (by simp)
    exact absurd ⟨hb, hc⟩ ((List.pairwise_cons.mp hpair).1 c (by simp))

/-- Settles O4: the row of the instruction matches its word, no other row does, and mnemonics tell rows apart. -/
theorem decoderAcceptsExactlyTheTableRows : Obligations.DecoderAcceptsExactlyTheTableRows := by
  intro w
  refine ⟨fun i hi => ?decoded, fun e he r hr => ?unrecognized⟩
  case decoded =>
    obtain ⟨r, hr, hmnemonic, hmatch⟩ := tableRow_statement i
    rw [encode_of_decode hi] at hmatch
    have hfilter := filter_eq_singleton (opcodeTable_pairwise_not_both_match w) hr hmatch
    refine ⟨⟨r, hfilter, hmnemonic⟩, fun q hq => ⟨fun hqw => ?_, fun hqi => ?_⟩⟩
    · have hqr : q ∈ opcodeTable.filter fun p => p.matches w := List.mem_filter.mpr ⟨hq, hqw⟩
      rw [hfilter, List.mem_singleton] at hqr
      rw [hqr, hmnemonic]
    · obtain rfl : q = r := List.inj_on_of_nodup_map opcodeTable_mnemonics_nodup hq hr (hqi.trans hmnemonic.symm)
      exact hmatch
  case unrecognized =>
    rw [← Bool.not_eq_true]
    exact fun hw => not_exists_decode_eq_error_of_matches hr hw ⟨e, he⟩

end Sys2Proof

namespace Sys2Proof.Machine

/-! ## Frames: what each shape of instruction leaves unchanged -/

/-- A frame with more registers and parts excepted. -/
theorem Unchanged.mono {s t : State} {regs regs' : Nibble → Bool} {ps ps' : List Part}
    (h : Unchanged s t regs ps) (hregs : ∀ r, regs' r = false → regs r = false) (hps : ps ⊆ ps') :
    Unchanged s t regs' ps' :=
  ⟨fun r hr => h.1 r (hregs r hr), fun p hp => h.2 p fun hp' => hp (hps hp')⟩

/-- The frame of every flag-setting result. -/
theorem Unchanged.putVF (s : State) (x : Nibble) (b f : Byte) :
    Unchanged s (s.putVF x b f) (regAndFlag x) [] := by
  refine .of_fields (fun r hr => ?register) (.inr rfl) (.inr ⟨rfl, rfl⟩) (.inr rfl) (.inr rfl) (.inr rfl)
    (.inr rfl) (.inr rfl) (.inr rfl)
  case register =>
    obtain ⟨hx, hf⟩ := regAndFlag_eq_false.mp hr
    rw [State.readV_putVF, if_neg hf, if_neg hx]

/-- The frame of RND. -/
theorem Unchanged.nextDraw_putV (s : State) (x : Nibble) (b : Byte) :
    Unchanged s (s.nextDraw.putV x b) (onlyReg x) [.draws] := by
  refine .of_fields (fun r hr => ?register) (.inr rfl) (.inr ⟨rfl, rfl⟩) (.inr rfl) (.inr rfl) (.inr rfl)
    (.inr rfl) (.inr rfl) (.inl (by decide))
  case register => rw [State.readV_putV, if_neg (onlyReg_eq_false.mp hr), State.nextDraw_readV]

/-- The frame of a draw. -/
theorem Unchanged.advance_draw (s : State) (x y : Nibble) (bs : List Byte) :
    Unchanged s (s.advance.draw x y bs) (onlyReg flagReg) [.fb] := by
  refine .of_fields (fun r hr => ?register) (.inr rfl) (.inr ⟨rfl, rfl⟩) (.inr rfl) (.inr rfl) (.inr rfl)
    (.inl (by decide)) (.inr rfl) (.inr rfl)
  case register => rw [State.readV_draw, if_neg (onlyReg_eq_false.mp hr), State.advance_readV]

/-- The frame of a store through I. -/
theorem Unchanged.advance_storeBytes (s : State) (a : Nat) (bs : List Byte) :
    Unchanged s (s.advance.storeBytes a bs) noReg [.mem] :=
  .of_fields (fun _ _ => rfl) (.inr rfl) (.inr ⟨rfl, rfl⟩) (.inr rfl) (.inr rfl) (.inl (by decide))
    (.inr rfl) (.inr rfl) (.inr rfl)

/-- The frame of a block load. -/
theorem Unchanged.advance_loadRegs (s : State) (x : Nibble) (a : Nat) :
    Unchanged s (s.advance.loadRegs x a) (regsThrough x) [] := by
  refine .of_fields (fun r hr => ?register) (.inr (State.loadRegs_i ..))
    (.inr ⟨State.loadRegs_depth .., State.loadRegs_stack ..⟩) (.inr (State.loadRegs_dt ..))
    (.inr (State.loadRegs_st ..)) (.inr (State.loadRegs_mem ..)) (.inr (State.loadRegs_fb ..))
    (.inr (State.loadRegs_run ..)) (.inr (State.loadRegs_draws ..))
  case register =>
    rw [State.readV_loadRegs, if_neg (regsThrough_eq_false.mp hr).not_ge, State.advance_readV]

/-- The frame of the key wait. -/
theorem Unchanged.advance_awaitKey (s : State) (x : Nibble) :
    Unchanged s (s.advance.awaitKey x) noReg [.run] :=
  .of_fields (fun _ _ => rfl) (.inr rfl) (.inr ⟨rfl, rfl⟩) (.inr rfl) (.inr rfl) (.inr rfl)
    (.inr rfl) (.inl (by decide)) (.inr rfl)

theorem Unchanged.advance_setDT (s : State) (b : Byte) : Unchanged s (s.advance.setDT b) noReg [.dt] :=
  .of_fields (fun _ _ => rfl) (.inr rfl) (.inr ⟨rfl, rfl⟩) (.inl (by decide)) (.inr rfl) (.inr rfl)
    (.inr rfl) (.inr rfl) (.inr rfl)

theorem Unchanged.advance_setST (s : State) (b : Byte) : Unchanged s (s.advance.setST b) noReg [.st] :=
  .of_fields (fun _ _ => rfl) (.inr rfl) (.inr ⟨rfl, rfl⟩) (.inr rfl) (.inl (by decide)) (.inr rfl)
    (.inr rfl) (.inr rfl) (.inr rfl)

/-- The frame of a call or a return: any new stack and any new pc. -/
theorem Unchanged.setStack (s : State) (d : Fin 17) (k : Vector Word 16) (a : Word) :
    Unchanged s { s with depth := d, stack := k, pc := a } noReg [.stack] :=
  .of_fields (fun _ _ => rfl) (.inr rfl) (.inl (by decide)) (.inr rfl) (.inr rfl) (.inr rfl)
    (.inr rfl) (.inr rfl) (.inr rfl)

/-- The frame of every fault (rule R125). -/
theorem Unchanged.takeFault (s : State) (c : FaultCause) (w : Option Word) (a : Nat) :
    Unchanged s (s.takeFault c w a) noReg [.run] :=
  .of_fields (fun _ _ => rfl) (.inr rfl) (.inr ⟨rfl, rfl⟩) (.inr rfl) (.inr rfl) (.inr rfl)
    (.inr rfl) (.inl (by decide)) (.inr rfl)

/-! ## What an instruction can change -/

theorem exec_seReg (x y : Nibble) (s : State) :
    exec (.seReg x y) s = .next (s.setPc (if s.readV x = s.readV y then s.pc + 4 else s.pc + 2)) :=
  congrArg _ (s.advance_skipIf _)

theorem exec_sneReg (x y : Nibble) (s : State) :
    exec (.sneReg x y) s = .next (s.setPc (if s.readV x ≠ s.readV y then s.pc + 4 else s.pc + 2)) :=
  congrArg _ (s.advance_skipIf _)

/-- The parts an instruction may change, `run` where it waits or may fault. -/
def changedParts : Instr → List Part
  | .cls => [.fb]
  | .ret | .call _ => [.stack, .run]
  | .ldI _ | .addI _ | .ldF _ => [.i]
  | .rnd _ _ => [.draws]
  | .drw _ _ _ => [.fb, .run]
  | .ldDtVx _ => [.dt]
  | .ldStVx _ => [.st]
  | .ldB _ | .ldMemVx _ => [.mem, .run]
  | .ldVxK _ | .ldVxMem _ => [.run]
  | .jp _ | .seImm _ _ | .sneImm _ _ | .seReg _ _ | .sneReg _ _ | .ldImm _ _ | .addImm _ _ | .ldReg _ _
  | .orReg _ _ | .andReg _ _ | .xorReg _ _ | .addReg _ _ | .sub _ _ | .shr _ _ | .subn _ _ | .shl _ _
  | .jpV0 _ | .ldVxDt _ => []

/-- A fault's frame holds whatever registers the instruction would have written. -/
theorem Unchanged.takeFault_of_mem {ps : List Part} (h : .run ∈ ps) (s : State) (regs : Nibble → Bool)
    (c : FaultCause) (w : Option Word) (a : Nat) : Unchanged s (s.takeFault c w a) regs ps :=
  (Unchanged.takeFault s c w a).mono (fun _ _ => rfl) (by simpa using h)

theorem Unchanged.storeThroughI (s : State) (w : Word) (bs : List Byte) :
    Unchanged s (s.storeThroughI w bs) noReg [.mem, .run] := by
  rcases storeThroughI_cases s w bs with ⟨-, h⟩ | ⟨-, h⟩
  · rw [h]; exact (advance_storeBytes s _ bs).mono (fun _ hr => hr) (by simp)
  · rw [h]; exact .takeFault_of_mem (by simp) s _ _ _ _

theorem exists_exec_frame (i : Instr) (s : State) :
    ∃ t, exec i s = .next t ∧ Unchanged s t (writtenRegs i) (changedParts i) := by
  cases i with
  | cls => exact ⟨_, exec_cls s, .advance_clearFb s⟩
  | ret =>
    rcases execRet_cases s with ⟨-, h⟩ | ⟨_, h⟩
    · exact ⟨_, h, .takeFault_of_mem (by simp [changedParts]) s _ _ _ _⟩
    · exact ⟨_, h, (Unchanged.setStack s _ s.stack _).mono (fun _ hr => hr) (by simp [changedParts])⟩
  | call nnn =>
    rcases execCall_cases nnn s with ⟨-, h⟩ | ⟨_, h⟩
    · exact ⟨_, h, .takeFault_of_mem (by simp [changedParts]) s _ _ _ _⟩
    · exact ⟨_, h, (Unchanged.setStack s _ _ _).mono (fun _ hr => hr) (by simp [changedParts])⟩
  | jp nnn => exact ⟨_, exec_jp nnn s, .setPc s _⟩
  | jpV0 nnn => exact ⟨_, rfl, .setPc s _⟩
  | seImm x kk => exact ⟨_, exec_seImm x kk s, .setPc s _⟩
  | sneImm x kk => exact ⟨_, exec_sneImm x kk s, .setPc s _⟩
  | seReg x y => exact ⟨_, exec_seReg x y s, .setPc s _⟩
  | sneReg x y => exact ⟨_, exec_sneReg x y s, .setPc s _⟩
  | ldImm x _ | addImm x _ | ldReg x _ | orReg x _ | andReg x _ | xorReg x _ | ldVxDt x =>
    exact ⟨_, rfl, .putV s x _⟩
  | addReg x _ | sub x _ | shr x _ | subn x _ | shl x _ => exact ⟨_, rfl, .putVF s x _ _⟩
  | rnd x kk => exact ⟨_, rfl, .nextDraw_putV s x _⟩
  | ldI _ | addI _ | ldF _ => exact ⟨_, rfl, .advance_setI s _⟩
  | drw x y n =>
    rcases execDrw_cases x y n s with ⟨-, h⟩ | ⟨-, -, h⟩
    · exact ⟨_, h, (Unchanged.advance_draw s x y _).mono (fun _ hr => hr) (by simp [changedParts])⟩
    · exact ⟨_, h, .takeFault_of_mem (by simp [changedParts]) s _ _ _ _⟩
  | ldVxK x => exact ⟨_, rfl, .advance_awaitKey s x⟩
  | ldDtVx x => exact ⟨_, rfl, .advance_setDT s _⟩
  | ldStVx x => exact ⟨_, rfl, .advance_setST s _⟩
  | ldB _ | ldMemVx _ => exact ⟨_, rfl, .storeThroughI s _ _⟩
  | ldVxMem x =>
    rcases execLdVxMem_cases x s with ⟨-, h⟩ | ⟨-, h⟩
    · exact ⟨_, h, (Unchanged.advance_loadRegs s x _).mono (fun _ hr => hr) (by simp [changedParts])⟩
    · exact ⟨_, h, .takeFault_of_mem (by simp [changedParts]) s _ _ _ _⟩

/-- A meaning has one answer: a property of some next state is one of the next state. -/
theorem of_exists_next {r : Result} {p : State → Prop} {t : State} (h : ∃ u, r = .next u ∧ p u)
    (ht : r = .next t) : p t := by
  obtain ⟨u, hu, hp⟩ := h
  rwa [Host.Outcome.next.inj (ht.symm.trans hu)]

/-- No instruction changes more than the spec's lists name. -/
theorem exec_frame {i : Instr} {s t : State} (h : exec i s = .next t) :
    Unchanged s t (writtenRegs i) (changedParts i) :=
  of_exists_next (exists_exec_frame i s) h

/-- Settles O20: the register half of the frame of every instruction. -/
theorem onlyNamedInstructionsWriteGeneralRegisters : Obligations.OnlyNamedInstructionsWriteGeneralRegisters :=
  fun _ _ _ r h hr => (exec_frame h).1 r hr

theorem State.tick_keeps_i (s : State) : s.tick.i = s.i := by
  obtain ⟨a, b, h⟩ := s.tick_eq_setTimers
  rw [h, State.setST_i, State.setDT_i]

theorem State.key_keeps_i (s : State) (k : Nibble) : (s.key k).i = s.i := by
  rcases s.key_cases k with h | ⟨x, -, h⟩ <;> rw [h]
  rw [State.resume_i, State.writeV_i]

/-- I is among the changed parts of the three instructions that write it. -/
theorem mem_changedParts_i_iff (i : Instr) :
    .i ∈ changedParts i ↔ (∃ nnn, i = .ldI nnn) ∨ (∃ x, i = .addI x) ∨ ∃ x, i = .ldF x := by
  cases i <;> simp [changedParts]

theorem mem_changedParts_dt_iff (i : Instr) : .dt ∈ changedParts i ↔ ∃ x, i = .ldDtVx x := by
  cases i <;> simp [changedParts]

theorem mem_changedParts_st_iff (i : Instr) : .st ∈ changedParts i ↔ ∃ x, i = .ldStVx x := by
  cases i <;> simp [changedParts]

/-- Settles O21: I is in no other instruction's frame exceptions. -/
theorem onlyThreeInstructionsWriteI : Obligations.OnlyThreeInstructionsWriteI := by
  intro i s t k h
  refine ⟨?_, s.tick_keeps_i, s.key_keeps_i k⟩
  by_cases hi : .i ∈ changedParts i
  · exact .inr ((mem_changedParts_i_iff i).mp hi)
  · exact .inl ((exec_frame h).2 .i hi)

/-! ## The timers (rule R28)

An instruction does not reach a timer when replacing the timer before it only replaces it after. -/

/-- The state with each timer replaced; `id` keeps a timer. -/
def State.mapTimers (f g : Byte → Byte) (s : State) : State := { s with dt := f s.dt, st := g s.st }

section timers
variable (f g : Byte → Byte) (s : State)

theorem State.advance_skipIf_mapTimers (c : Bool) :
    (s.mapTimers f g).advance.skipIf c = (s.advance.skipIf c).mapTimers f g := by
  cases c <;> rfl

theorem State.storeThroughI_mapTimers (w : Word) (bs : List Byte) :
    (s.mapTimers f g).storeThroughI w bs = (s.storeThroughI w bs).mapTimers f g := by
  rw [State.storeThroughI, State.storeThroughI, apply_ite (State.mapTimers f g)]; rfl

theorem execRet_mapTimers : execRet (s.mapTimers f g) = mapNext (.mapTimers f g) (execRet s) := by
  rcases Nat.eq_zero_or_pos s.depth.val with h | h
  · rw [execRet, execRet, State.pop_of_zero h, State.pop_of_zero (s := s.mapTimers f g) h]; rfl
  · rw [execRet, execRet, State.pop_of_pos h, State.pop_of_pos (s := s.mapTimers f g) h]; rfl

theorem execCall_mapTimers (nnn : Addr12) :
    execCall nnn (s.mapTimers f g) = mapNext (.mapTimers f g) (execCall nnn s) := by
  by_cases h : s.depth.val < 16
  · rw [execCall, execCall, State.push_of_lt h, State.push_of_lt (s := s.mapTimers f g) h]; rfl
  · have hfull : s.depth.val = 16 := by omega
    rw [execCall, execCall, State.push_of_full hfull, State.push_of_full (s := s.mapTimers f g) hfull]; rfl

theorem execDrw_mapTimers (x y n : Nibble) :
    execDrw x y n (s.mapTimers f g) = mapNext (.mapTimers f g) (execDrw x y n s) := by
  rw [execDrw, execDrw, apply_ite (mapNext _)]; rfl

theorem execLdVxMem_mapTimers (x : Nibble) :
    execLdVxMem x (s.mapTimers f g) = mapNext (.mapTimers f g) (execLdVxMem x s) := by
  have hload (a : Nat) :
      (s.mapTimers f g).advance.loadRegs x a = (s.advance.loadRegs x a).mapTimers f g := by
    unfold State.loadRegs; rfl
  rw [execLdVxMem, execLdVxMem, apply_ite (mapNext _), hload]; rfl

/-- The instructions that reach neither timer. -/
theorem exec_mapTimers {i : Instr} (hrd : ∀ x, i ≠ .ldVxDt x) (hdt : ∀ x, i ≠ .ldDtVx x)
    (hst : ∀ x, i ≠ .ldStVx x) : exec i (s.mapTimers f g) = mapNext (.mapTimers f g) (exec i s) := by
  cases i with
  | ldVxDt x => exact absurd rfl (hrd x)
  | ldDtVx x => exact absurd rfl (hdt x)
  | ldStVx x => exact absurd rfl (hst x)
  | ret => exact execRet_mapTimers f g s
  | call nnn => exact execCall_mapTimers f g s nnn
  | seImm _ _ | sneImm _ _ | seReg _ _ | sneReg _ _ =>
    exact congrArg Host.Outcome.next (s.advance_skipIf_mapTimers f g _)
  | drw x y n => exact execDrw_mapTimers f g s x y n
  | ldB _ | ldMemVx _ => exact congrArg Host.Outcome.next (s.storeThroughI_mapTimers f g _ _)
  | ldVxMem x => exact execLdVxMem_mapTimers f g s x
  | _ => rfl

/-- Only Fx07 and Fx15 reach DT. -/
theorem exec_mapTimers_dt {i : Instr} (hrd : ∀ x, i ≠ .ldVxDt x) (hdt : ∀ x, i ≠ .ldDtVx x) :
    exec i (s.mapTimers f id) = mapNext (.mapTimers f id) (exec i s) := by
  by_cases hi : ∃ x, i = .ldStVx x
  · obtain ⟨x, rfl⟩ := hi; rfl
  · exact exec_mapTimers f id s hrd hdt (not_exists.mp hi)

/-- Only Fx18 reaches ST. -/
theorem exec_mapTimers_st {i : Instr} (hst : ∀ x, i ≠ .ldStVx x) :
    exec i (s.mapTimers id g) = mapNext (.mapTimers id g) (exec i s) := by
  by_cases hi : (∃ x, i = .ldVxDt x) ∨ ∃ x, i = .ldDtVx x
  · rcases hi with ⟨x, rfl⟩ | ⟨x, rfl⟩ <;> rfl
  · rw [not_or, not_exists, not_exists] at hi
    exact exec_mapTimers id g s hi.1 hi.2 hst

end timers

theorem State.key_keeps_timers (s : State) (k : Nibble) : (s.key k).dt = s.dt ∧ (s.key k).st = s.st := by
  rcases s.key_cases k with h | ⟨x, -, h⟩ <;> simp [h]

/-- A tick counts both timers down, or in Faulted neither. -/
theorem State.toNat_tick_timers (s : State) :
    s.tick.dt.toNat = s.dt.toNat - (if s.isFaulted then 0 else 1) ∧
    s.tick.st.toNat = s.st.toNat - (if s.isFaulted then 0 else 1) := by
  cases h : s.isFaulted with
  | true => simp [State.tick_of_faulted h]
  | false => simp [State.tick_of_not_faulted h, toNat_countDown]

/-- Settles O22: each clause on an instruction is the frame or the commutation with a constant timer. -/
theorem onlyTimerInstructionsAndTheTickTouchTimers : Obligations.OnlyTimerInstructionsAndTheTickTouchTimers := by
  intro i s t k h
  obtain ⟨hdt, hst⟩ := s.toNat_tick_timers
  refine ⟨?frameDt, ?frameSt, fun b hrd hwr => ?dt, fun b hwr => ?st, ?writesDt, ?writesSt,
    (s.key_keeps_timers k).1, (s.key_keeps_timers k).2, rfl, rfl, rfl, rfl,
    hdt ▸ Nat.sub_le .., hst ▸ Nat.sub_le ..⟩
  case frameDt =>
    rw [or_iff_not_imp_right, ← mem_changedParts_dt_iff]
    exact (exec_frame h).2 .dt
  case frameSt =>
    rw [or_iff_not_imp_right, ← mem_changedParts_st_iff]
    exact (exec_frame h).2 .st
  case dt => exact (exec_mapTimers_dt (fun _ => b) s hrd hwr).trans (congrArg _ h)
  case st => exact (exec_mapTimers_st (fun _ => b) s hwr).trans (congrArg _ h)
  case writesDt => rintro b ⟨x, rfl⟩; exact h
  case writesSt => rintro b ⟨x, rfl⟩; exact h

end Sys2Proof.Machine

namespace Sys2Proof.Machine

/-! ## Which instructions fault, and how (rule R124) -/

/-- The table of rule R124 without the fetch's row: the instruction faults in the state, with the cause and
the record's address. -/
inductive FaultsWith : Instr → State → FaultCause → Nat → Prop where
  | ret {s : State} (h : s.sp = -1) : FaultsWith .ret s .stackUnderflow s.pc.toNat
  | call {s : State} {nnn : Addr12} (h : s.sp = 15) : FaultsWith (.call nnn) s .stackOverflow s.pc.toNat
  | drw {s : State} {x y n : Nibble} (hn : n ≠ 0) (h : 4096 < s.i.toNat + n.toNat) :
    FaultsWith (.drw x y n) s .readOutOfRange (max s.i.toNat 4096)
  | ldB {s : State} {x : Nibble} (h : 4096 < s.i.toNat + 3) :
    FaultsWith (.ldB x) s .writeOutOfRange (max s.i.toNat 4096)
  | ldMemVx {s : State} {x : Nibble} (h : 4096 < s.i.toNat + (x.toNat + 1)) :
    FaultsWith (.ldMemVx x) s .writeOutOfRange (max s.i.toNat 4096)
  | ldVxMem {s : State} {x : Nibble} (h : 4096 < s.i.toNat + (x.toNat + 1)) :
    FaultsWith (.ldVxMem x) s .readOutOfRange (max s.i.toNat 4096)

/-- An instruction that faults does nothing but take the fault, with its own word in the record. -/
theorem exec_of_faultsWith {i : Instr} {s : State} {c : FaultCause} {a : Nat} (h : FaultsWith i s c a) :
    exec i s = .next (s.takeFault c (some (encode i)) a) := by
  cases h with
  | ret hsp =>
    rcases execRet_cases s with ⟨-, hex⟩ | ⟨hpos, -⟩
    · exact hex
    · exact absurd ((State.sp_eq_neg_one_iff s).mp hsp) hpos.ne'
  | call hsp =>
    rcases execCall_cases _ s with ⟨-, hex⟩ | ⟨hlt, -⟩
    · exact hex
    · exact absurd ((State.sp_eq_fifteen_iff s).mp hsp) hlt.ne
  | drw hn hpast =>
    rcases execDrw_cases _ _ _ s with ⟨hok, -⟩ | ⟨-, -, hex⟩
    · exact absurd hok (not_or.mpr ⟨hn, hpast.not_ge⟩)
    · exact hex
  | ldB hpast => exact congrArg _ (State.storeThroughI_of_not_inRange hpast _)
  | ldMemVx hpast =>
    exact congrArg _ (State.storeThroughI_of_not_inRange (by rwa [State.length_regsUpTo]) _)
  | ldVxMem hpast =>
    rcases execLdVxMem_cases _ s with ⟨hok, -⟩ | ⟨-, hex⟩
    · exact absurd hok hpast.not_ge
    · exact hex

/-- The control state after an instruction that does not fault: only the key wait changes it. -/
def runAfter : Instr → RunState → RunState
  | .ldVxK x, _ => .awaitKey x
  | _, r => r

/-- An instruction that does not fault completes. -/
theorem exec_of_not_faultsWith {i : Instr} {s : State} (h : ∀ c a, ¬ FaultsWith i s c a) :
    ∃ t, exec i s = .next t ∧ t.run = runAfter i s.run := by
  cases i with
  | ret =>
    rcases execRet_cases s with ⟨h0, -⟩ | ⟨_, hex⟩
    · exact absurd (.ret ((State.sp_eq_neg_one_iff s).mpr h0)) (h _ _)
    · exact ⟨_, hex, rfl⟩
  | call nnn =>
    rcases execCall_cases nnn s with ⟨hfull, -⟩ | ⟨_, hex⟩
    · exact absurd (.call ((State.sp_eq_fifteen_iff s).mpr hfull)) (h _ _)
    · exact ⟨_, hex, rfl⟩
  | drw x y n =>
    rcases execDrw_cases x y n s with ⟨-, hex⟩ | ⟨hn, hpast, -⟩
    · exact ⟨_, hex, rfl⟩
    · exact absurd (.drw hn hpast) (h _ _)
  | ldB x =>
    have hok : s.i.toNat + 3 ≤ 4096 := not_lt.mp fun hpast => h _ _ (.ldB hpast)
    exact ⟨_, congrArg Host.Outcome.next (State.storeThroughI_of_inRange hok _), rfl⟩
  | ldMemVx x =>
    have hok : s.i.toNat + (x.toNat + 1) ≤ 4096 := not_lt.mp fun hpast => h _ _ (.ldMemVx hpast)
    exact ⟨_, congrArg Host.Outcome.next (State.storeThroughI_of_inRange (by rwa [State.length_regsUpTo]) _), rfl⟩
  | ldVxMem x =>
    rcases execLdVxMem_cases x s with ⟨-, hex⟩ | ⟨hpast, -⟩
    · exact ⟨_, hex, rfl⟩
    · exact absurd (.ldVxMem hpast) (h _ _)
  | seImm _ _ | sneImm _ _ | seReg _ _ | sneReg _ _ => exact ⟨_, rfl, State.skipIf_run ..⟩
  | _ => exact ⟨_, rfl, rfl⟩

/-- What an instruction does to the control state: it faults as the table says, or it completes. -/
theorem exec_run_cases {i : Instr} {s t : State} (h : exec i s = .next t) :
    (∃ c a, FaultsWith i s c a ∧ t = s.takeFault c (some (encode i)) a) ∨
    ((∀ c a, ¬ FaultsWith i s c a) ∧ t.run = runAfter i s.run) := by
  by_cases hf : ∃ c a, FaultsWith i s c a
  · obtain ⟨c, a, hca⟩ := hf
    exact .inl ⟨c, a, hca, Host.Outcome.next.inj (h.symm.trans (exec_of_faultsWith hca))⟩
  · have hnot : ∀ c a, ¬ FaultsWith i s c a := fun c a hca => hf ⟨c, a, hca⟩
    exact .inr ⟨hnot, of_exists_next (exec_of_not_faultsWith hnot) h⟩

theorem State.isFaulted_eq_true_iff (s : State) : s.isFaulted = true ↔ ∃ r, s.run = .faulted r := by
  unfold State.isFaulted
  split <;> simp_all

theorem State.isFaulted_of_running {s : State} (h : s.run = .running) : s.isFaulted = false := by
  simp [State.isFaulted, h]

theorem runAfter_ne_faulted {i : Instr} {s : State} {r : FaultRecord} (h : s.isFaulted = false) :
    runAfter i s.run ≠ .faulted r := by
  intro hr
  have hrun : s.run = .faulted r := by
    cases i with
    | ldVxK x => cases hr
    | _ => exact hr
  simp [State.isFaulted, hrun] at h

/-- From a state that is not faulted an instruction reaches Faulted exactly where the table has a row. -/
theorem exec_isFaulted_iff {i : Instr} {s t : State} (hs : s.isFaulted = false) (h : exec i s = .next t) :
    t.isFaulted = true ↔ ∃ c a, FaultsWith i s c a := by
  rcases exec_run_cases h with ⟨c, a, hca, rfl⟩ | ⟨hnot, hrun⟩
  · exact iff_of_true rfl ⟨c, a, hca⟩
  · refine iff_of_false (fun ht => ?_) (fun ⟨c, a, hca⟩ => hnot c a hca)
    obtain ⟨r, hr⟩ := (State.isFaulted_eq_true_iff t).mp ht
    exact runAfter_ne_faulted hs (hrun.symm.trans hr)

/-- Settles O14: the rows of the table, condition by condition. -/
theorem onlyTheListedConditionsFault : Obligations.OnlyTheListedConditionsFault := by
  intro i s t hs h
  rw [exec_isFaulted_iff hs h]
  constructor
  · rintro ⟨c, a, hca⟩
    cases hca with
    | ret hsp => exact .inl ⟨rfl, hsp⟩
    | call hsp => exact .inr (.inl ⟨_, rfl, hsp⟩)
    | drw hn hpast => exact .inr (.inr (.inl ⟨_, _, _, rfl, hn, hpast⟩))
    | ldB hpast => exact .inr (.inr (.inr (.inl ⟨_, rfl, hpast⟩)))
    | ldMemVx hpast => exact .inr (.inr (.inr (.inr ⟨_, .inl rfl, hpast⟩)))
    | ldVxMem hpast => exact .inr (.inr (.inr (.inr ⟨_, .inr rfl, hpast⟩)))
  · rintro (⟨rfl, hsp⟩ | ⟨nnn, rfl, hsp⟩ | ⟨x, y, n, rfl, hn, hpast⟩ | ⟨x, rfl, hpast⟩ |
      ⟨x, rfl | rfl, hpast⟩)
    · exact ⟨_, _, .ret hsp⟩
    · exact ⟨_, _, .call hsp⟩
    · exact ⟨_, _, .drw hn hpast⟩
    · exact ⟨_, _, .ldB hpast⟩
    · exact ⟨_, _, .ldMemVx hpast⟩
    · exact ⟨_, _, .ldVxMem hpast⟩

/-- Settles O25: a fault, a wait, or the control state kept. -/
theorem onlyTheKeyWaitAndFaultsChangeRun : Obligations.OnlyTheKeyWaitAndFaultsChangeRun := by
  intro i s t h
  rcases exec_run_cases h with ⟨c, a, -, rfl⟩ | ⟨-, hrun⟩
  · exact .inr (.inr ⟨_, rfl, rfl, rfl, rfl⟩)
  · cases i with
    | ldVxK x => exact .inr (.inl ⟨x, rfl, hrun⟩)
    | _ => exact .inl hrun

/-- Settles O28: both are rows of the table of causes. -/
theorem fullAndEmptyStacksFault : Obligations.FullAndEmptyStacksFault := by
  intro s nnn
  refine ⟨fun hfull => ?call, fun hempty => ?ret⟩
  case call => exact ⟨_, exec_of_faultsWith (.call hfull), rfl, rfl, rfl, .takeFault s _ _ _⟩
  case ret => exact ⟨_, exec_of_faultsWith (.ret hempty), rfl, rfl, rfl, .takeFault s _ _ _⟩

/-- Settles O46: all four are rows of the table of causes. -/
theorem transfersPastMemoryFaultPrecisely : Obligations.TransfersPastMemoryFaultPrecisely := by
  intro s x y n
  have hlowest : (if s.i.toNat < 4096 then 4096 else s.i.toNat) = max s.i.toNat 4096 := by split <;> omega
  rw [hlowest]
  refine ⟨fun hpast => ?bcd, fun hpast => ?store, fun hpast => ?load, fun hn hpast => ?draw⟩
  case bcd => exact ⟨_, exec_of_faultsWith (.ldB hpast), rfl, rfl, rfl, .takeFault s _ _ _⟩
  case store => exact ⟨_, exec_of_faultsWith (.ldMemVx hpast), rfl, rfl, .takeFault s _ _ _⟩
  case load => exact ⟨_, exec_of_faultsWith (.ldVxMem hpast), rfl, rfl, rfl, .takeFault s _ _ _⟩
  case draw => exact ⟨_, exec_of_faultsWith (.drw hn hpast), rfl, rfl, .takeFault s _ _ _⟩

/-! ## The step (rules R63 to R65, R73) -/

section step
variable {s : State}

theorem step_of_decoded (hrun : s.run = .running) (hpc : s.pc.toNat + 2 ≤ 4096) {i : Instr}
    (hd : decode s.wordAtPc = .ok i) : step s = exec i s := by
  rw [step_of_fetched hrun hpc, ← State.wordAtPc, hd]

theorem step_of_unrecognized (hrun : s.run = .running) (hpc : s.pc.toNat + 2 ≤ 4096) {e : Unrecognized}
    (hd : decode s.wordAtPc = .error e) : step s = .next s.advance := by
  rw [step_of_fetched hrun hpc, ← State.wordAtPc, hd]; rfl

theorem report_of_decoded (hrun : s.run = .running) (hpc : s.pc.toNat + 2 ≤ 4096) {i : Instr}
    (hd : decode s.wordAtPc = .ok i) : s.report = none := by
  rw [State.wordAtPc] at hd
  simp [State.report, hrun, State.fetchBytes_of_inRange hpc, hd]

theorem report_of_unrecognized (hrun : s.run = .running) (hpc : s.pc.toNat + 2 ≤ 4096) {e : Unrecognized}
    (hd : decode s.wordAtPc = .error e) : s.report = some ⟨s.wordAtPc, s.pc⟩ := by
  rw [State.wordAtPc] at hd
  simp [State.report, hrun, State.fetchBytes_of_inRange hpc, hd, State.wordAtPc]

theorem State.faultOut_of_running (hrun : s.run = .running) : s.faultOut = none := by
  simp [State.faultOut, hrun]

end step

/-- Settles O8: the two bytes put together are the word at pc. -/
theorem stepRunsTheDecodedInstruction : Obligations.StepRunsTheDecodedInstruction :=
  fun _ _ hrun hpc hd => step_of_decoded hrun hpc hd

/-- Settles O9: the step is the fetch's advance alone. -/
theorem unrecognizedWordIsSkippedAndReported : Obligations.UnrecognizedWordIsSkippedAndReported := by
  intro s hrun hpc
  have hout : s.advance.faultOut = none := State.faultOut_of_running (s := s.advance) hrun
  exact ⟨fun e hd => ⟨report_of_unrecognized hrun hpc hd, _, step_of_unrecognized hrun hpc hd, rfl, hout, .setPc s _⟩,
    fun i hd => report_of_decoded hrun hpc hd⟩

/-- Settles O10: the fetch's check fails and the fault is taken. -/
theorem fetchPastMemoryFaults : Obligations.FetchPastMemoryFaults :=
  fun s hrun hpc => ⟨_, step_of_fetch_fault hrun (by omega), rfl, rfl, rfl, .takeFault s _ _ _⟩

/-- A Running machine takes a step. -/
theorem step_of_running {s : State} (hrun : s.run = .running) : ∃ t, step s = .next t := by
  rcases Nat.lt_or_ge 4096 (s.pc.toNat + 2) with hpc | hpc
  · exact ⟨_, step_of_fetch_fault hrun hpc⟩
  · cases hd : decode s.wordAtPc with
    | ok i => rw [step_of_decoded hrun hpc hd]; exact exec_answers_next i s
    | error e => exact ⟨_, step_of_unrecognized hrun hpc hd⟩

/-- Settles O11: one case for each control state. -/
theorem stepIsEnabledExactlyInRunning : Obligations.StepIsEnabledExactlyInRunning := by
  intro s
  refine ⟨⟨fun ⟨t, ht⟩ => (step_next_cases ht).1, step_of_running⟩, fun x => step_of_awaitKey,
    fun r => step_of_faulted, fun q => ?_⟩
  cases hrun : s.run with
  | running => obtain ⟨t, ht⟩ := step_of_running hrun; rw [ht]; nofun
  | awaitKey x => rw [step_of_awaitKey hrun]; nofun
  | faulted r => rw [step_of_faulted hrun]; nofun

/-! ## The record of a fault (rule R124) -/

/-- The record of a row of the table fits, for the instruction that the word at pc decodes to. -/
theorem FaultsWith.record_fits {i : Instr} {s : State} {c : FaultCause} {a : Nat} (h : FaultsWith i s c a)
    (hd : decode s.wordAtPc = .ok i) : FaultRecord.fits ⟨c, s.pc, some (encode i), a⟩ s := by
  rw [encode_of_decode hd]
  cases h with
  | ret hsp => exact ⟨rfl, rfl, rfl, hsp, hd⟩
  | call hsp => exact ⟨rfl, rfl, rfl, hsp, _, hd⟩
  | drw hn hpast =>
    have hpos : 0 < BitVec.toNat _ := Nat.pos_of_ne_zero fun h0 => hn (BitVec.eq_of_toNat_eq h0)
    exact ⟨rfl, rfl, _, hd, rfl, max_lt (Nat.lt_add_of_pos_right hpos) hpast⟩
  | ldB hpast => exact ⟨rfl, rfl, _, hd, rfl, max_lt (Nat.lt_add_of_pos_right (Nat.succ_pos 2)) hpast⟩
  | ldMemVx hpast | ldVxMem hpast =>
    exact ⟨rfl, rfl, _, hd, rfl, max_lt (Nat.lt_add_of_pos_right (Nat.succ_pos _)) hpast⟩

theorem State.fetchFault_record_fits {s : State} (h : 4096 < s.pc.toNat + 2) :
    FaultRecord.fits ⟨.fetchOutOfRange, s.pc, none, s.pc.toNat⟩ s :=
  ⟨rfl, rfl, rfl, by show 0xFFF ≤ s.pc.toNat; omega⟩

/-- A step into Faulted changes only `run`, and the record fits the state it was taken in. -/
theorem step_faulted {s t : State} {r : FaultRecord} (h : step s = .next t) (hr : t.run = .faulted r) :
    t = { s with run := .faulted r } ∧ r.fits s := by
  obtain ⟨hrun, ⟨hpc, rfl⟩ | ⟨-, rfl, -⟩ | ⟨-, i, hd, hex⟩⟩ := step_next_cases h
  · cases hr
    exact ⟨rfl, State.fetchFault_record_fits hpc⟩
  · cases hrun.symm.trans hr
  · rcases exec_run_cases hex with ⟨c, a, hca, rfl⟩ | ⟨-, hrun'⟩
    · cases hr
      exact ⟨rfl, hca.record_fits hd⟩
    · exact absurd (hrun'.symm.trans hr) (runAfter_ne_faulted (State.isFaulted_of_running hrun))

/-- Settles O13: `step_faulted`, with the record that the control state holds. -/
theorem faultEntryIsPrecise : Obligations.FaultEntryIsPrecise := by
  intro s t h ht
  obtain ⟨r, hr⟩ := (State.isFaulted_eq_true_iff t).mp ht
  obtain ⟨heq, hfits⟩ := step_faulted h hr
  exact ⟨r, heq, by rw [heq]; rfl, hfits⟩

/-- In Faulted every tick and key is discarded. -/
theorem act_of_faulted {s : State} (hs : s.isFaulted = true) {a : Action} (ha : a ≠ .step) :
    act a s = .next s := by
  cases a with
  | step => exact absurd rfl ha
  | tick => exact congrArg _ (State.tick_of_faulted hs)
  | key k =>
    obtain ⟨r, hr⟩ := (State.isFaulted_eq_true_iff s).mp hs
    exact congrArg _ (State.key_of_not_awaiting (by simp [State.awaiting, hr]) k)

theorem actAll_of_faulted {s : State} (hs : s.isFaulted = true) {as : List Action}
    (has : ∀ a ∈ as, a ≠ .step) : actAll as s = .next s := by
  induction as with
  | nil => rfl
  | cons a as ih =>
    rw [actAll, act_of_faulted hs (has a List.mem_cons_self)]
    exact ih fun b hb => has b (List.mem_cons_of_mem a hb)

/-- Settles O15: by induction on the list, each transition being discarded. -/
theorem faultedIsAbsorbing : Obligations.FaultedIsAbsorbing := by
  intro s as hs has
  have hall := actAll_of_faulted hs has
  obtain ⟨r, hr⟩ := (State.isFaulted_eq_true_iff s).mp hs
  refine ⟨hall, r, by rw [State.faultOut, hr], ?_⟩
  rw [actAll_append, hall]
  simp [actAll, act, step_of_faulted hr]

end Sys2Proof.Machine

namespace Sys2Proof.Machine

/-! ## What an instruction does to memory (rules R38 to R46) -/

/-- A store through I keeps memory or writes bytes in range at I. -/
theorem State.storeThroughI_mem_cases (s : State) (w : Word) (bs : List Byte) :
    (s.storeThroughI w bs).mem = s.mem ∨
    (s.i.toNat + bs.length ≤ 4096 ∧ (s.storeThroughI w bs).mem = s.mem.writeBytes s.i.toNat bs) := by
  rcases storeThroughI_cases s w bs with ⟨hok, h⟩ | ⟨-, h⟩ <;> rw [h]
  · exact .inr ⟨hok, rfl⟩
  · exact .inl rfl

/-- The bytes an instruction stores through I when they lie in range. -/
def bytesStored : Instr → State → List Byte
  | .ldB x, s => bcdDigits (s.readV x)
  | .ldMemVx x, s => s.regsUpTo x
  | _, _ => []

theorem length_bytesStored (i : Instr) (s : State) : (bytesStored i s).length = writeLength i := by
  cases i with
  | ldMemVx x => exact s.length_regsUpTo x
  | _ => rfl

/-- Memory after an instruction: as before, or with the instruction's own bytes written at I, in range. -/
theorem exec_mem_cases {i : Instr} {s t : State} (h : exec i s = .next t) :
    t.mem = s.mem ∨
      (s.i.toNat + (bytesStored i s).length ≤ 4096 ∧ t.mem = s.mem.writeBytes s.i.toNat (bytesStored i s)) := by
  refine of_exists_next (p := fun u => u.mem = s.mem ∨
    (_ ∧ u.mem = s.mem.writeBytes s.i.toNat (bytesStored i s))) ?_ h
  cases i with
  | ldB x => exact ⟨_, rfl, s.storeThroughI_mem_cases _ _⟩
  | ldMemVx x => exact ⟨_, rfl, s.storeThroughI_mem_cases _ _⟩
  | ret => rcases execRet_cases s with ⟨-, hex⟩ | ⟨_, hex⟩ <;> exact ⟨_, hex, .inl rfl⟩
  | call nnn => rcases execCall_cases nnn s with ⟨-, hex⟩ | ⟨_, hex⟩ <;> exact ⟨_, hex, .inl rfl⟩
  | drw x y n => rcases execDrw_cases x y n s with ⟨-, hex⟩ | ⟨-, -, hex⟩ <;> exact ⟨_, hex, .inl rfl⟩
  | ldVxMem x => rcases execLdVxMem_cases x s with ⟨-, hex⟩ | ⟨-, hex⟩ <;> exact ⟨_, hex, .inl rfl⟩
  | seImm _ _ | sneImm _ _ | seReg _ _ | sneReg _ _ => exact ⟨_, rfl, .inl (State.skipIf_mem ..)⟩
  | _ => exact ⟨_, rfl, .inl rfl⟩

theorem exec_keeps_wf {i : Instr} {s t : State} (h : exec i s = .next t) (hs : s.mem.wf = true) :
    t.mem.wf = true := by
  rcases exec_mem_cases h with hm | ⟨hok, hm⟩ <;> rw [hm]
  · exact hs
  · exact Memory.wf_writeBytes hs hok

/-- The two instructions that write bytes, and which. -/
theorem lt_writeLength_cases {i : Instr} {n : Nat} (h : n < writeLength i) :
    (∃ x, i = .ldB x ∧ n < 3) ∨ ∃ x, i = .ldMemVx x ∧ n ≤ x.toNat := by
  cases i with
  | ldB x => exact .inl ⟨x, rfl, h⟩
  | ldMemVx x => exact .inr ⟨x, rfl, Nat.le_of_lt_succ h⟩
  | _ => cases h

theorem State.tick_keeps_mem (s : State) : s.tick.mem = s.mem := by
  obtain ⟨a, b, h⟩ := s.tick_eq_setTimers
  rw [h, State.setST_mem, State.setDT_mem]

theorem State.key_keeps_mem (s : State) (k : Nibble) : (s.key k).mem = s.mem := by
  rcases s.key_cases k with h | ⟨x, -, h⟩ <;> rw [h]
  rw [State.resume_mem, State.writeV_mem]

/-- Settles O24: an address outside the bytes written reads as before. -/
theorem onlyTheTwoStoresChangeMemory : Obligations.OnlyTheTwoStoresChangeMemory := by
  intro i s t a k h
  have hread {m : Memory} (u : State) (hm : u.mem = m) : u.readMem a = m.read a := congrArg (Memory.read · a) hm
  refine ⟨?_, hread _ s.tick_keeps_mem, hread _ (s.key_keeps_mem k)⟩
  rcases exec_mem_cases h with hm | ⟨-, hm⟩
  · exact .inl (hread t hm)
  · by_cases hout : a < s.i.toNat ∨ s.i.toNat + (bytesStored i s).length ≤ a
    · exact .inl ((hread t hm).trans (Memory.read_writeBytes_outside _ s.mem _ a hout))
    · rw [length_bytesStored] at hout
      have hin : a - s.i.toNat < writeLength i := by omega
      rcases lt_writeLength_cases hin with ⟨x, rfl, hlt⟩ | ⟨x, rfl, hle⟩
      · exact .inr (.inl ⟨x, rfl, by omega, by omega⟩)
      · exact .inr (.inr ⟨x, rfl, by omega, by omega⟩)

/-! ## Canonical memories (log entry 10) -/

theorem Memory.read_head {a : Nat} {b : Byte} {m : Memory} : Memory.read ((a, b) :: m) a = b := by
  rw [Memory.read, if_pos rfl]

theorem Memory.read_tail {a c : Nat} {b : Byte} {m : Memory} (h : c ≠ a) :
    Memory.read ((a, b) :: m) c = m.read c := by
  rw [Memory.read, if_neg h]

/-- A canonical memory that lists an address does not read alike with one that lists only higher ones. -/
theorem Memory.read_head_ne_of_below {lo a : Nat} {b : Byte} {m m' : Memory} (hb : b ≠ Memory.background a)
    (hm' : Memory.wfFrom lo m' = true) (ha : a < lo) :
    Memory.read ((a, b) :: m) a ≠ m'.read a := by
  rw [Memory.read_head, Memory.read_below hm' ha]
  exact hb

theorem Memory.eq_of_read_eq {lo : Nat} {m m' : Memory} (hm : Memory.wfFrom lo m = true)
    (hm' : Memory.wfFrom lo m' = true) (hread : ∀ a < 4096, m.read a = m'.read a) : m = m' := by
  induction m generalizing lo m' with
  | nil =>
    match m' with
    | [] => rfl
    | (c, d) :: n' =>
      obtain ⟨-, hlt, hd, -⟩ := Memory.wfFrom_cons.mp hm'
      exact absurd (hread c hlt).symm (Memory.read_head_ne_of_below (lo := c + 1) hd rfl (Nat.lt_succ_self c))
  | cons e n ih =>
    obtain ⟨a, b⟩ := e
    obtain ⟨-, halt, hb, hn⟩ := Memory.wfFrom_cons.mp hm
    match m' with
    | [] => exact absurd (hread a halt) (Memory.read_head_ne_of_below (lo := a + 1) hb rfl (Nat.lt_succ_self a))
    | (c, d) :: n' =>
      obtain ⟨hlo', hclt, hd, hn'⟩ := Memory.wfFrom_cons.mp hm'
      rcases Nat.lt_trichotomy a c with hac | rfl | hca
      · have hm'' : Memory.wfFrom (a + 1) ((c, d) :: n') = true := Memory.wfFrom_cons.mpr ⟨hac, hclt, hd, hn'⟩
        exact absurd (hread a halt) (Memory.read_head_ne_of_below hb hm'' (Nat.lt_succ_self a))
      · have hbd : b = d := by simpa only [Memory.read_head] using hread a halt
        have htail : ∀ x < 4096, Memory.read n x = Memory.read n' x := by
          intro x hx
          rcases Nat.lt_or_ge a x with hax | hxa
          · simpa only [Memory.read_tail hax.ne'] using hread x hx
          · rw [Memory.read_below hn (Nat.lt_succ_of_le hxa), Memory.read_below hn' (Nat.lt_succ_of_le hxa)]
        rw [hbd, ih hn hn' htail]
      · have hm'' : Memory.wfFrom (c + 1) ((a, b) :: n) = true := Memory.wfFrom_cons.mpr ⟨hca, halt, hb, hn⟩
        exact absurd (hread c hclt).symm (Memory.read_head_ne_of_below hd hm'' (Nat.lt_succ_self c))

/-- Settles O19: by induction on the two lists, whose first entries must agree. -/
theorem equalReadsMakeEqualMemories : Obligations.EqualReadsMakeEqualMemories :=
  fun _ _ => Memory.eq_of_read_eq

/-! ## The invariant (rules R23, R29, R79) -/

/-- pc past a fetched instruction, or past a skipped one. -/
theorem State.toNat_pc_add_le {s : State} (hpc : s.pc.toNat + 2 ≤ 4096) :
    (s.pc + 2).toNat ≤ 0x1000 ∧ (s.pc + 4).toNat ≤ 0x1002 := by
  constructor <;> bv_omega

/-- The bound on live return addresses, for a stack given by its depth and slots. -/
def ReturnsBounded (d : Fin 17) (k : Vector Word 16) : Prop :=
  ∀ j : Fin 16, j.val < d.val → k[j].toNat ≤ 0x1000

/-- After an instruction fetched in range pc has its bound, if the live return addresses have theirs. -/
theorem exec_keeps_pcBound {i : Instr} {s t : State} (hpc : s.pc.toNat + 2 ≤ 4096)
    (hk : ReturnsBounded s.depth s.stack) (h : exec i s = .next t) : t.pc.toNat ≤ 0x10FE := by
  obtain ⟨hpc2, hpc4⟩ := State.toNat_pc_add_le hpc
  have hnext : (s.pc + 2).toNat ≤ 0x10FE := by omega
  have hfault : s.pc.toNat ≤ 0x10FE := by omega
  have hskip (p : Prop) [Decidable p] : (if p then s.pc + 4 else s.pc + 2).toNat ≤ 0x10FE := by split <;> omega
  have htarget (nnn : Addr12) : (target nnn).toNat ≤ 0x10FE := by
    have := nnn.isLt; rw [toNat_target]; omega
  refine of_exists_next (p := fun u => u.pc.toNat ≤ 0x10FE) ?_ h
  cases i with
  | ret =>
    rcases execRet_cases s with ⟨-, hex⟩ | ⟨hpos, hex⟩
    · exact ⟨_, hex, hfault⟩
    · have hlt := s.depth.isLt
      have htop := hk ⟨s.depth.val - 1, by omega⟩ (Nat.sub_lt hpos Nat.one_pos)
      exact ⟨_, hex, htop.trans (show 0x1000 ≤ 0x10FE by decide)⟩
  | call nnn =>
    rcases execCall_cases nnn s with ⟨-, hex⟩ | ⟨_, hex⟩
    · exact ⟨_, hex, hfault⟩
    · exact ⟨_, hex, htarget nnn⟩
  | jp nnn => exact ⟨_, exec_jp nnn s, htarget nnn⟩
  | jpV0 nnn =>
    have hsum : (offsetTarget nnn (s.readV 0)).toNat ≤ 0x10FE := by
      have := nnn.isLt; have := (s.readV 0).isLt; rw [toNat_offsetTarget]; omega
    exact ⟨_, rfl, hsum⟩
  | seImm x kk => exact ⟨_, exec_seImm x kk s, hskip _⟩
  | sneImm x kk => exact ⟨_, exec_sneImm x kk s, hskip _⟩
  | seReg x y => exact ⟨_, exec_seReg x y s, hskip _⟩
  | sneReg x y => exact ⟨_, exec_sneReg x y s, hskip _⟩
  | drw x y n =>
    rcases execDrw_cases x y n s with ⟨-, hex⟩ | ⟨-, -, hex⟩
    · exact ⟨_, hex, hnext⟩
    · exact ⟨_, hex, hfault⟩
  | ldB _ | ldMemVx _ =>
    rcases storeThroughI_cases s _ _ with ⟨-, hst⟩ | ⟨-, hst⟩
    · exact ⟨_, congrArg Host.Outcome.next hst, hnext⟩
    · exact ⟨_, congrArg Host.Outcome.next hst, hfault⟩
  | ldVxMem x =>
    rcases execLdVxMem_cases x s with ⟨-, hex⟩ | ⟨-, hex⟩
    · exact ⟨_, hex, hnext⟩
    · exact ⟨_, hex, hfault⟩
  | _ => exact ⟨_, rfl, hnext⟩

theorem ReturnsBounded.of_depth_le {d d' : Fin 17} {k : Vector Word 16} (h : ReturnsBounded d k)
    (hd : d'.val ≤ d.val) : ReturnsBounded d' k :=
  fun j hj => h j (hj.trans_le hd)

theorem ReturnsBounded.push {d : Fin 17} {k : Vector Word 16} (h : ReturnsBounded d k) (hd : d.val < 16)
    {a : Word} (ha : a.toNat ≤ 0x1000) : ReturnsBounded ⟨d.val + 1, by omega⟩ (k.set d.val a hd) := by
  intro j hj
  rw [Fin.getElem_fin, Vector.getElem_set]
  split
  · exact ha
  · exact h j (by simp only at hj; omega)

/-- Only RET and CALL have the stack among the parts they change; the frame speaks of sp and the slots. -/
theorem mem_changedParts_stack_iff (i : Instr) :
    .stack ∈ changedParts i ↔ i = .ret ∨ ∃ nnn, i = .call nnn := by
  cases i <;> simp [changedParts]

theorem ReturnsBounded.of_same {s t : State} (hk : ReturnsBounded s.depth s.stack)
    (h : Part.same .stack s t) : ReturnsBounded t.depth t.stack := by
  obtain ⟨hsp, hslots⟩ := h
  have hd : t.depth.val = s.depth.val := by unfold State.sp at hsp; omega
  intro j hj
  rw [hslots j]
  exact hk j (hd ▸ hj)

/-- After an instruction fetched in range every live return address has its bound. -/
theorem exec_keeps_returns {i : Instr} {s t : State} (hpc : s.pc.toNat + 2 ≤ 4096)
    (hk : ReturnsBounded s.depth s.stack) (h : exec i s = .next t) : ReturnsBounded t.depth t.stack := by
  by_cases hi : .stack ∈ changedParts i
  · refine of_exists_next (p := fun u => ReturnsBounded u.depth u.stack) ?_ h
    rcases (mem_changedParts_stack_iff i).mp hi with rfl | ⟨nnn, rfl⟩
    · rcases execRet_cases s with ⟨-, hex⟩ | ⟨_, hex⟩
      · exact ⟨_, hex, hk⟩
      · exact ⟨_, hex, hk.of_depth_le (Nat.sub_le ..)⟩
    · rcases execCall_cases nnn s with ⟨-, hex⟩ | ⟨hlt, hex⟩
      · exact ⟨_, hex, hk⟩
      · exact ⟨_, hex, hk.push hlt (State.toNat_pc_add_le hpc).1⟩
  · exact hk.of_same ((exec_frame h).2 .stack hi)

/-- The record's fit speaks of no field that a fault writes. -/
theorem State.Inv.faulted {s : State} (h : s.Inv) {r : FaultRecord} (hr : r.fits s) :
    State.Inv { s with run := .faulted r } where
  memory := h.memory
  pcBound := h.pcBound
  returns := h.returns
  record := fun q hq => by cases hq; exact hr

/-- The invariant of a state that is not faulted. -/
theorem State.Inv.of_not_faulted {s : State} (hm : s.mem.wf = true) (hpc : s.pc.toNat ≤ 0x10FE)
    (hk : ReturnsBounded s.depth s.stack) (hs : s.isFaulted = false) : s.Inv where
  memory := hm
  pcBound := hpc
  returns := hk
  record := fun r hr => by simp [State.isFaulted, hr] at hs

/-- Settles O16: a faulting step changes only `run`; any other step keeps the three bounds one by one. -/
theorem everyStepKeepsTheInvariant : Obligations.EveryStepKeepsTheInvariant := by
  intro s t hs h
  cases ht : t.isFaulted with
  | true =>
    obtain ⟨r, hr⟩ := (State.isFaulted_eq_true_iff t).mp ht
    obtain ⟨rfl, hfits⟩ := step_faulted h hr
    exact hs.faulted hfits
  | false =>
    obtain ⟨-, ⟨-, rfl⟩ | ⟨hpc, rfl, -⟩ | ⟨hpc, i, -, hex⟩⟩ := step_next_cases h
    · cases ht
    · exact .of_not_faulted hs.memory ((State.toNat_pc_add_le hpc).1.trans (by decide)) hs.returns ht
    · exact .of_not_faulted (exec_keeps_wf hex hs.memory) (exec_keeps_pcBound hpc hs.returns hex)
        (exec_keeps_returns hpc hs.returns hex) ht

/-- A tick keeps the invariant, which does not speak of the timers. -/
theorem State.Inv.tick {s : State} (h : s.Inv) : s.tick.Inv := by
  obtain ⟨a, b, htick⟩ := s.tick_eq_setTimers
  rw [htick]
  exact ⟨h.memory, h.pcBound, h.returns, h.record⟩

/-- A key keeps the invariant: it is discarded, or the machine it resumes is Running. -/
theorem State.Inv.key {s : State} (h : s.Inv) (k : Nibble) : (s.key k).Inv := by
  rcases s.key_cases k with hk | ⟨x, -, hk⟩ <;> rw [hk]
  · exact h
  · exact .of_not_faulted h.memory h.pcBound h.returns rfl

theorem act_keeps_inv {a : Action} {s t : State} (hs : s.Inv) (h : act a s = .next t) : t.Inv := by
  cases a with
  | step => exact everyStepKeepsTheInvariant s t hs h
  | tick => exact of_exists_next ⟨_, rfl, hs.tick⟩ h
  | key k => exact of_exists_next ⟨_, rfl, hs.key k⟩ h

/-- The first transition of a run that reaches a next state, and the rest of the run. -/
theorem actAll_cons_next {a : Action} {as : List Action} {s t : State} (h : actAll (a :: as) s = .next t) :
    ∃ u, act a s = .next u ∧ actAll as u = .next t := by
  rw [actAll] at h
  split at h
  · exact ⟨_, ‹_›, h⟩
  · cases h
  · cases h

/-- Settles O17: by induction on the list of transitions. -/
theorem everyRunOfTheDriverKeepsTheInvariant : Obligations.EveryRunOfTheDriverKeepsTheInvariant := by
  intro as
  induction as with
  | nil => exact fun s t hs h => of_exists_next ⟨s, rfl, hs⟩ h
  | cons a as ih =>
    intro s t hs h
    obtain ⟨u, ha, has⟩ := actAll_cons_next h
    exact ih u t (act_keeps_inv hs ha) has

/-! ## Loaded machines (rules R37, R57, R144) -/

/-- A launch on a canonical memory has the invariant: pc is 0x200 and the stack is empty. -/
theorem State.Inv.launch (l : Launch) {m : Memory} (hm : m.wf = true) : (State.launch l m).Inv :=
  .of_not_faulted hm (by decide : (0x200#16).toNat ≤ 0x10FE) (fun _ hj => absurd hj (Nat.not_lt_zero _)) rfl

theorem loadMemory_wf {image : List Byte} (h : image.length ≤ 3584) : (loadMemory image).wf = true :=
  Memory.wf_writeBytes (m := []) (a := 0x200) rfl (by simp only [Config.memSize]; omega)

/-- A load succeeds for an image that fits, and launches the machine on the image. -/
theorem load_ok {l : Launch} {image : List Byte} {s : State} (h : load l image = .ok s) :
    image.length ≤ 3584 ∧ s = .launch l (loadMemory image) := by
  rcases Nat.lt_or_ge 3584 image.length with hlen | hlen
  · rw [load_of_too_large l hlen] at h; cases h
  · rw [load_of_fits l hlen] at h; cases h; exact ⟨hlen, rfl⟩

/-- Settles O18: both are launches, on canonical memories. -/
theorem resetAndLoadedMachinesHaveTheInvariant : Obligations.ResetAndLoadedMachinesHaveTheInvariant := by
  refine ⟨.launch .zero (m := []) rfl, fun l image s h => ?_⟩
  obtain ⟨hlen, rfl⟩ := load_ok h
  exact .launch l (loadMemory_wf hlen)

/-- Settles O59: a loaded machine is a launch, and the empty image writes nothing. -/
theorem loadedMachineStartsAt0x200 : Obligations.LoadedMachineStartsAt0x200 := by
  refine ⟨fun l image s h => ?_, load_of_fits .zero (Nat.zero_le _)⟩
  obtain ⟨-, rfl⟩ := load_ok h
  have hslot (k : Fin 16) : (Vector.replicate 16 (0 : Word))[k] = 0 := by
    rw [Fin.getElem_fin, Vector.getElem_replicate]
  have hrow (r : Fin 32) : (Vector.replicate 32 (0 : Row))[r] = 0 := by
    rw [Fin.getElem_fin, Vector.getElem_replicate]
  exact ⟨rfl, rfl, rfl, hslot, hrow, rfl, rfl, rfl, rfl⟩

end Sys2Proof.Machine

namespace Sys2Proof.Machine

/-! ## Register and timer instructions (rules R84 to R86, R94 to R105, R119 to R122) -/

/-- Settles O32: either skip is one write of pc. -/
theorem skipRegisterOnEqualAndNotEqual : Obligations.SkipRegisterOnEqualAndNotEqual := by
  intro s x y
  exact ⟨decode_seRegFormat x y, decode_sneRegFormat x y, ⟨_, exec_seReg x y s, rfl, .setPc s _⟩,
    _, exec_sneReg x y s, rfl, .setPc s _⟩

theorem exec_jpV0 (nnn : Addr12) (s : State) :
    exec (.jpV0 nnn) s = .next (s.setPc (offsetTarget nnn (s.readV 0))) := rfl

/-- Settles O33: the sum fits in 16 bits. -/
theorem jumpWithOffsetAddsV0Exactly : Obligations.JumpWithOffsetAddsV0Exactly := by
  intro s nnn
  exact ⟨decode_jpV0Format nnn, _, exec_jpV0 nnn s, toNat_offsetTarget nnn (s.readV 0), .setPc s _⟩

theorem exec_orReg (x y : Nibble) (s : State) :
    exec (.orReg x y) s = .next (s.putV x (s.readV x ||| s.readV y)) := rfl

theorem exec_andReg (x y : Nibble) (s : State) :
    exec (.andReg x y) s = .next (s.putV x (s.readV x &&& s.readV y)) := rfl

theorem exec_xorReg (x y : Nibble) (s : State) :
    exec (.xorReg x y) s = .next (s.putV x (s.readV x ^^^ s.readV y)) := rfl

/-- Settles O35: each is one flagless result, read bit by bit. -/
theorem logicOperationsWorkBitByBit : Obligations.LogicOperationsWorkBitByBit := by
  intro s x y
  refine ⟨decode_aluFormat x y 0x1, decode_aluFormat x y 0x2, decode_aluFormat x y 0x3,
    ⟨_, exec_orReg x y s, rfl, .putV s x _, fun b _ => ?or⟩,
    ⟨_, exec_andReg x y s, rfl, .putV s x _, fun b _ => ?and⟩,
    ⟨_, exec_xorReg x y s, rfl, .putV s x _, fun b _ => ?xor⟩⟩
  case or => rw [State.readV_putV_same, BitVec.getLsbD_or]
  case and => rw [State.readV_putV_same, BitVec.getLsbD_and]
  case xor => rw [State.readV_putV_same, BitVec.getLsbD_xor]

theorem State.readV_flag_putVF (s : State) (x : Nibble) (b f : Byte) : (s.putVF x b f).readV 15 = f := by
  rw [State.readV_putVF, if_pos rfl]

theorem State.readV_putVF_same (s : State) {x : Nibble} (h : x ≠ 15) (b f : Byte) :
    (s.putVF x b f).readV x = b := by
  rw [State.readV_putVF, if_neg h, if_pos rfl]

theorem carryFlag_eq (a b : Byte) : carryFlag a b = if a.toNat + b.toNat > 255 then 1 else 0 := by
  rw [carryFlag, flagByte_eq]; simp only [decide_eq_true_eq]

theorem greaterFlag_eq (a b : Byte) : greaterFlag a b = if a.toNat > b.toNat then 1 else 0 := by
  rw [greaterFlag, flagByte_eq]; simp only [decide_eq_true_eq]

/-- A difference mod 256 as an integer (rule R90). -/
theorem toInt_wrapSub (a b : Byte) : ((wrapSub a b).toNat : Int) = ((a.toNat : Int) - b.toNat) % 256 := by
  have := b.isLt
  rw [toNat_wrapSub]
  omega

theorem exec_addReg (x y : Nibble) (s : State) : exec (.addReg x y) s =
    .next (s.putVF x (wrapAdd (s.readV x) (s.readV y)) (carryFlag (s.readV x) (s.readV y))) := rfl

theorem exec_sub (x y : Nibble) (s : State) : exec (.sub x y) s =
    .next (s.putVF x (wrapSub (s.readV x) (s.readV y)) (greaterFlag (s.readV x) (s.readV y))) := rfl

theorem exec_subn (x y : Nibble) (s : State) : exec (.subn x y) s =
    .next (s.putVF x (wrapSub (s.readV y) (s.readV x)) (greaterFlag (s.readV y) (s.readV x))) := rfl

/-- Settles O36: the flag is what the last write put into VF. -/
theorem addSetsCarryLast : Obligations.AddSetsCarryLast := by
  intro s x y
  refine ⟨decode_aluFormat x y 0x4, _, exec_addReg x y s, rfl, .putVF s x _ _, ?flag, fun hx => ?sum⟩
  case flag => rw [State.readV_flag_putVF, carryFlag_eq]
  case sum => rw [State.readV_putVF_same s hx, toNat_wrapAdd]

/-- Settles O37: SUBN is SUB with its operands reversed. -/
theorem subtractionsSetTheStrictFlagLast : Obligations.SubtractionsSetTheStrictFlagLast := by
  intro s x y
  have hput (a b : Byte) :
      (s.putVF x (wrapSub a b) (greaterFlag a b)).readV 15 = (if a.toNat > b.toNat then 1 else 0) ∧
      (x ≠ 15 → (((s.putVF x (wrapSub a b) (greaterFlag a b)).readV x).toNat : Int) =
        ((a.toNat : Int) - b.toNat) % 256) := by
    refine ⟨?flag, fun hx => ?difference⟩
    case flag => rw [State.readV_flag_putVF, greaterFlag_eq]
    case difference => rw [State.readV_putVF_same s hx, toInt_wrapSub]
  exact ⟨decode_aluFormat x y 0x5, decode_aluFormat x y 0x7,
    ⟨_, exec_sub x y s, rfl, .putVF s x _ _, hput _ _⟩, _, exec_subn x y s, rfl, .putVF s x _ _, hput _ _⟩

theorem State.shiftOperand_eq {s : State} {x y : Nibble} {a : Byte}
    (hvx : Config.shiftSource = .vx → a = s.readV x) (hvy : Config.shiftSource = .vy → a = s.readV y) :
    s.shiftOperand x y = a := by
  unfold State.shiftOperand
  cases h : Config.shiftSource with
  | vx => exact (hvx h).symm
  | vy => exact (hvy h).symm

theorem exec_shr (x y : Nibble) (s : State) : exec (.shr x y) s = .next
    (s.putVF x (shiftRight1 (s.shiftOperand x y)) (lsbFlag (s.shiftOperand x y))) := rfl

theorem exec_shl (x y : Nibble) (s : State) : exec (.shl x y) s = .next
    (s.putVF x (shiftLeft1 (s.shiftOperand x y)) (msbFlag (s.shiftOperand x y))) := rfl

/-- Settles O38: the source is fixed once, and each shift is a flag-setting result of it. -/
theorem shiftsMoveOneBitOutIntoVF : Obligations.ShiftsMoveOneBitOutIntoVF := by
  intro s x y a hvx hvy
  have ha : s.shiftOperand x y = a := State.shiftOperand_eq hvx hvy
  refine ⟨decode_aluFormat x y 0x6, decode_aluFormat x y 0xE,
    ⟨_, exec_shr x y s, rfl, .putVF s x _ _, ?bit0, fun hx => ?half⟩,
    ⟨_, exec_shl x y s, rfl, .putVF s x _ _, ?bit7, fun hx => ?double⟩⟩
  case bit0 => rw [State.readV_flag_putVF, ha, toNat_lsbFlag]
  case half => rw [State.readV_putVF_same s hx, ha, toNat_shiftRight1]
  case bit7 => rw [State.readV_flag_putVF, ha, toNat_msbFlag]
  case double => rw [State.readV_putVF_same s hx, ha, toNat_shiftLeft1]

theorem exec_rnd (x : Nibble) (kk : Byte) (s : State) :
    exec (.rnd x kk) s = .next (s.nextDraw.putV x (Config.randomByte s.draws &&& kk)) := rfl

/-- Settles O39: the free byte at the counter, which then moves on. -/
theorem randomIsTheFreeByteUnderTheMask : Obligations.RandomIsTheFreeByteUnderTheMask := by
  intro s x kk
  exact ⟨decode_rndFormat x kk, _, exec_rnd x kk s, State.readV_putV_same .., rfl, rfl, .nextDraw_putV s x _⟩

theorem exec_addI (x : Nibble) (s : State) :
    exec (.addI x) s = .next (s.advance.setI (s.i + zext16 (s.readV x))) := rfl

/-- Settles O41: one write of I. -/
theorem addToIWrapsAtSixteenBits : Obligations.AddToIWrapsAtSixteenBits := by
  intro s x
  refine ⟨decode_miscFormat x 0x1E, _, exec_addI x s, ?sum, rfl, .advance_setI s _⟩
  case sum => rw [State.setI_i, BitVec.toNat_add, toNat_zext16]

theorem exec_ldVxDt (x : Nibble) (s : State) : exec (.ldVxDt x) s = .next (s.putV x s.dt) := rfl

theorem exec_ldDtVx (x : Nibble) (s : State) : exec (.ldDtVx x) s = .next (s.advance.setDT (s.readV x)) := rfl

theorem exec_ldStVx (x : Nibble) (s : State) : exec (.ldStVx x) s = .next (s.advance.setST (s.readV x)) := rfl

/-- Settles O52: each is one write of one byte. -/
theorem timerInstructionsMoveOneByte : Obligations.TimerInstructionsMoveOneByte := by
  intro s x
  exact ⟨decode_miscFormat x 0x07, decode_miscFormat x 0x15, decode_miscFormat x 0x18,
    ⟨_, exec_ldVxDt x s, s.readV_putV_same x _, rfl, .putV s x _⟩,
    ⟨_, exec_ldDtVx x s, rfl, rfl, .advance_setDT s _⟩,
    _, exec_ldStVx x s, rfl, rfl, .advance_setST s _⟩

theorem exec_ldVxK (x : Nibble) (s : State) : exec (.ldVxK x) s = .next (s.advance.awaitKey x) := rfl

/-- Settles O53: the wait is entered after the advance. -/
theorem keyWaitSuspendsPastTheInstruction : Obligations.KeyWaitSuspendsPastTheInstruction :=
  fun s x => ⟨decode_miscFormat x 0x0A, _, exec_ldVxK x s, rfl, rfl, rfl, .advance_awaitKey s x⟩

/-! ## Call and return (rules R79, R81, R87) -/

/-- A return from a stack that is not empty. -/
theorem exec_ret_of_nonempty {s : State} (h : 0 ≤ s.sp) :
    ∃ t, exec .ret s = .next t ∧ t.sp = s.sp - 1 ∧ (∀ k : Fin 16, (k.val : Int) = s.sp → t.pc = s.stack[k]) ∧
      (∀ k : Fin 16, t.stack[k] = s.stack[k]) ∧ Unchanged s t noReg [.stack] := by
  rcases execRet_cases s with ⟨h0, -⟩ | ⟨hpos, hex⟩
  · exact absurd ((State.sp_eq_neg_one_iff s).mpr h0) (by omega)
  · refine ⟨_, hex, ?sp, fun k hk => ?top, fun k => rfl, .setStack s _ s.stack _⟩
    case sp => simp only [State.sp]; omega
    case top =>
      have hslot : s.depth.val - 1 = k.val := by simp only [State.sp] at hk; omega
      simp only [hslot, Fin.getElem_fin]

/-- A call on a stack with room. -/
theorem exec_call_of_room {s : State} (h : s.sp < 15) (nnn : Addr12) :
    ∃ t, exec (.call nnn) s = .next t ∧ t.pc.toNat = nnn.toNat ∧ t.sp = s.sp + 1 ∧
      (∀ k : Fin 16, t.stack[k] = if (k.val : Int) = s.sp + 1 then s.pc + 2 else s.stack[k]) ∧
      Unchanged s t noReg [.stack] := by
  rcases execCall_cases nnn s with ⟨hfull, -⟩ | ⟨hlt, hex⟩
  · exact absurd ((State.sp_eq_fifteen_iff s).mpr hfull) h.ne
  · refine ⟨_, hex, toNat_target nnn, ?sp, fun k => ?slot, .setStack s _ _ _⟩
    case sp => simp only [State.sp]; omega
    case slot =>
      have hk : s.depth.val = k.val ↔ (k.val : Int) = s.sp + 1 := by simp only [State.sp]; omega
      simp only [Fin.getElem_fin, Vector.getElem_set, hk]

/-- Settles O26: a return from a stack that is not empty. -/
theorem returnPopsTheTopSlot : Obligations.ReturnPopsTheTopSlot :=
  fun _ h => ⟨rfl, exec_ret_of_nonempty h⟩

/-- Settles O27: a call on a stack with room. -/
theorem callPushesTheNextAddress : Obligations.CallPushesTheNextAddress :=
  fun _ nnn h => ⟨decode_callFormat nnn, exec_call_of_room h nnn⟩

/-- The first step of a run, for any machine behind the host's interface. -/
theorem core_run_succ_of_step {M : Host.Core} {s t : M.State} (h : M.step s = .next t) (k : Nat) :
    M.run (k + 1) s = M.run k t := by
  rw [Host.Core.run, h]

theorem core_run_succ {s t : State} (h : step s = .next t) (k : Nat) : core.run (k + 1) s = core.run k t :=
  core_run_succ_of_step (M := core) h k

/-- Settles O29: the return pops the address that the call pushed. -/
theorem callThenReturnComesBack : Obligations.CallThenReturnComesBack := by
  intro s nnn hrun hpc hword hsp htgt hret
  obtain ⟨t, hcall, htpc, htsp, htslot, htframe⟩ := exec_call_of_room hsp nnn
  have htrun : t.run = .running := (htframe.2 .run (by decide)).trans hrun
  have htword : t.wordAtPc = 0x00EE#16 := by
    have hmem : ∀ a, t.readMem a = s.readMem a := htframe.2 .mem (by decide)
    rw [State.wordAtPc, hmem, hmem, htpc]
    exact hret
  have hdepth : (s.depth.val : Int) = s.sp + 1 := by simp only [State.sp]; omega
  obtain ⟨u, hpop, husp, hupc, huslot, huframe⟩ := exec_ret_of_nonempty (s := t) (by omega)
  have hstep1 : step s = .next t :=
    (step_of_decoded hrun hpc (hword ▸ decode_callFormat nnn)).trans hcall
  have hstep2 : step t = .next u :=
    (step_of_decoded htrun (htpc.symm ▸ htgt) (by rw [htword]; rfl)).trans hpop
  refine ⟨u, ?run, ?pc, by omega, fun k => (huslot k).trans (htslot k), htframe.trans huframe⟩
  case run => rw [core_run_succ hstep1, core_run_succ hstep2]; rfl
  case pc =>
    have hk : s.depth.val < 16 := by omega
    rw [hupc ⟨s.depth.val, hk⟩ (hdepth.trans htsp.symm), htslot, if_pos hdepth]

end Sys2Proof.Machine

namespace Sys2Proof.Machine

/-! ## The transfers through I (rules R107 to R109) -/

theorem exec_ldB_of_inRange {s : State} (h : s.i.toNat + 3 ≤ 4096) (x : Nibble) :
    exec (.ldB x) s = .next (s.advance.storeBytes s.i.toNat (bcdDigits (s.readV x))) :=
  congrArg Host.Outcome.next (State.storeThroughI_of_inRange h _)

theorem exec_ldMemVx_of_inRange {s : State} {x : Nibble} (h : s.i.toNat + x.toNat + 1 ≤ 4096) :
    exec (.ldMemVx x) s = .next (s.advance.storeBytes s.i.toNat (s.regsUpTo x)) :=
  congrArg Host.Outcome.next (State.storeThroughI_of_inRange (by rwa [State.length_regsUpTo]) _)

theorem exec_ldVxMem_of_inRange {s : State} {x : Nibble} (h : s.i.toNat + x.toNat + 1 ≤ 4096) :
    exec (.ldVxMem x) s = .next (s.advance.loadRegs x s.i.toNat) := by
  rcases execLdVxMem_cases x s with ⟨-, hex⟩ | ⟨hpast, -⟩
  · exact hex
  · exact absurd h hpast.not_ge

/-- The three digits as numbers. -/
theorem toNat_bcdDigits (b : Byte) :
    (bcdDigits b).map BitVec.toNat = [b.toNat / 100, b.toNat / 10 % 10, b.toNat % 10] := by
  have hlt := b.isLt
  have hmod {n : Nat} (h : n < 256) : (BitVec.ofNat 8 n).toNat = n := by
    rw [BitVec.toNat_ofNat, Nat.mod_eq_of_lt h]
  rw [bcdDigits, List.map_cons, List.map_cons, List.map_cons, List.map_nil, hmod (by omega), hmod (by omega),
    hmod (by omega)]

/-- Settles O42: the digits are the bytes stored, and every other address lies outside them. -/
theorem bcdStoresThreeDigits : Obligations.BcdStoresThreeDigits := by
  intro s x hrange
  have hdigit (k : Nat) (hk : k < 3) :
      ((s.advance.storeBytes s.i.toNat (bcdDigits (s.readV x))).readMem (s.i.toNat + k)).toNat =
        ((bcdDigits (s.readV x)).map BitVec.toNat)[k]'(by simpa using hk) := by
    rw [State.readMem_storeBytes_inside s.advance s.i.toNat (bcdDigits (s.readV x)) k hk, List.getElem_map]
    rfl
  simp only [toNat_bcdDigits] at hdigit
  refine ⟨decode_miscFormat x 0x33, _, exec_ldB_of_inRange hrange x, rfl, hdigit 0 (by decide),
    hdigit 1 (by decide), hdigit 2 (by decide), fun a ha => ?outside, .advance_storeBytes s _ _⟩
  case outside =>
    have hout : a < s.i.toNat ∨ s.i.toNat + 3 ≤ a := by
      by_contra hin
      exact ha (a - s.i.toNat) (by omega) (by omega)
    exact State.readMem_storeBytes_outside s.advance _ _ a hout

/-- After a block store the k-th byte from I is Vk. -/
theorem State.readMem_storeRegs_inside (s : State) {x k : Nibble} (h : k.toNat ≤ x.toNat) (a : Nat) :
    (s.advance.storeBytes a (s.regsUpTo x)).readMem (a + k.toNat) = s.readV k := by
  have hk : k.toNat < (s.regsUpTo x).length := by rw [State.length_regsUpTo]; omega
  rw [State.readMem_storeBytes_inside _ _ _ _ hk, State.getElem_regsUpTo]

/-- Settles O43: Vk is the k-th byte stored, and every other address lies outside the block. -/
theorem blockStoreWritesV0ThroughVx : Obligations.BlockStoreWritesV0ThroughVx := by
  intro s x hrange
  refine ⟨decode_miscFormat x 0x55, _, exec_ldMemVx_of_inRange hrange, rfl,
    fun k hk => s.readMem_storeRegs_inside hk _, fun a ha => ?outside, .advance_storeBytes s _ _⟩
  case outside =>
    have hout : a < s.i.toNat ∨ s.i.toNat + (s.regsUpTo x).length ≤ a := by
      rw [State.length_regsUpTo]
      by_contra hin
      have hx := x.isLt
      have hk : (BitVec.ofNat 4 (a - s.i.toNat)).toNat = a - s.i.toNat := by
        rw [BitVec.toNat_ofNat, Nat.mod_eq_of_lt (by omega)]
      exact ha (.ofNat 4 (a - s.i.toNat)) (by omega) (by omega)
    exact State.readMem_storeBytes_outside s.advance _ _ a hout

/-- After a block load Vk is the k-th byte from the address. -/
theorem State.readV_loadRegs_of_le (s : State) {x k : Nibble} (h : k.toNat ≤ x.toNat) (a : Nat) :
    (s.advance.loadRegs x a).readV k = s.readMem (a + k.toNat) := by
  rw [State.readV_loadRegs, if_pos h, State.advance_readMem]

/-- Settles O44: a block load in range. -/
theorem blockLoadReadsV0ThroughVx : Obligations.BlockLoadReadsV0ThroughVx :=
  fun s x hrange => ⟨decode_miscFormat x 0x65, _, exec_ldVxMem_of_inRange hrange, rfl,
    fun _ hk => s.readV_loadRegs_of_le hk _, .advance_loadRegs s x _⟩

/-- Settles O45: the load reads at I + k the byte that the store wrote there. -/
theorem storeThenLoadRecoversTheRegisters : Obligations.StoreThenLoadRecoversTheRegisters := by
  intro s t u x hrange hstore hi hmem
  obtain rfl := Host.Outcome.next.inj ((exec_ldMemVx_of_inRange hrange).symm.trans hstore)
  refine ⟨_, exec_ldVxMem_of_inRange (hi.symm ▸ hrange), hi, fun k hk => ?_⟩
  rw [State.readV_loadRegs_of_le u hk, hmem, hi, State.readMem_storeRegs_inside s hk]

/-- Settles O47: the store leaves V0 and V1 at the next pc, and nothing stands between it and the fetch. -/
theorem storedInstructionIsFetchedNext : Obligations.StoredInstructionIsFetchedNext := by
  intro s x j hrun hpc hi hx hrange hd
  have hnext : (s.pc + 2).toNat = s.pc.toNat + 2 := State.toNat_advance_pc (by omega)
  refine ⟨_, exec_ldMemVx_of_inRange hrange,
    step_of_decoded (s := s.advance.storeBytes s.i.toNat (s.regsUpTo x)) hrun ?fetchable ?decoded⟩
  case fetchable =>
    show (s.pc + 2).toNat + 2 ≤ 4096
    omega
  case decoded =>
    have hbyte (k : Nibble) (hk : k.toNat ≤ x.toNat) :
        (s.advance.storeBytes s.i.toNat (s.regsUpTo x)).readMem ((s.pc + 2).toNat + k.toNat) = s.readV k := by
      rw [← hi]
      exact s.readMem_storeRegs_inside hk _
    rw [State.wordAtPc, State.storeBytes_pc, State.advance_pc]
    exact (congrArg decode (congrArg₂ wordOfBytes (hbyte 0 (Nat.zero_le _)) (hbyte 1 hx))).trans hd

/-! ## The draw (rules R111 to R117) -/

/-- The only sprite row below 32 that goes to framebuffer row r. -/
theorem spriteTarget_eq_iff_of_lt {y : Byte} {k : Nat} {r : Fin 32} (h : k < 32) :
    spriteTarget y k = r ↔ k = (r.val + 256 - y.toNat) % 32 := by
  have := y.isLt
  have := r.isLt
  rw [spriteTarget_eq_iff]
  omega

section drawRows
variable {x y : Byte} {m : Memory} {a n : Nat} {fb : Vector Row 32} {r : Fin 32}

/-- A row that sprite row k goes to is XORed with it. -/
theorem row_drawSprite_of_target {k : Nat} (hn : n ≤ 32) (hk : k < n) (ht : spriteTarget y k = r) :
    (drawSprite x y 0 (m.readBytes a n) fb).1[r] = fb[r] ^^^ spriteRow (m.read (a + k)) x := by
  have hlen : (m.readBytes a n).length = n := m.length_readBytes a n
  rw [drawSprite_row_of_target (k := 0) (j := k) (by rwa [Nat.zero_add]) fb (by omega) (by omega),
    Memory.getElem_readBytes]

/-- A row that no sprite row goes to is unchanged. -/
theorem row_drawSprite_of_no_target (h : ∀ k < n, spriteTarget y k ≠ r) :
    (drawSprite x y 0 (m.readBytes a n) fb).1[r] = fb[r] := by
  refine drawSprite_row_miss x y _ 0 fb r fun j hj => ?_
  rw [Memory.length_readBytes] at hj
  rw [Nat.zero_add]
  exact h j hj

theorem row_drawSprite (hn : n ≤ 32) :
    (drawSprite x y 0 (m.readBytes a n) fb).1[r] =
      if (r.val + 256 - y.toNat) % 32 < n then
        fb[r] ^^^ spriteRow (m.read (a + (r.val + 256 - y.toNat) % 32)) x
      else fb[r] := by
  split
  case isTrue hk =>
    exact row_drawSprite_of_target hn hk ((spriteTarget_eq_iff_of_lt (Nat.mod_lt _ (by decide))).mpr rfl)
  case isFalse hk =>
    refine row_drawSprite_of_no_target fun k hkn ht => hk ?_
    rwa [← (spriteTarget_eq_iff_of_lt (hkn.trans_le hn)).mp ht]

end drawRows

/-- Settles O49: each row by `row_drawSprite`, and VF by the collision bit. -/
theorem drawXorsTheSpriteRows : Obligations.DrawXorsTheSpriteRows := by
  intro s x y n hrange
  have hn : n.toNat ≤ 32 := n.isLt.le.trans (by decide)
  refine ⟨decode_drwFormat x y n, _, exec_drw_of_inRange hrange, rfl, fun r => row_drawSprite hn, ?collision,
    ?flag, .advance_draw s x y _⟩
  case collision =>
    rw [State.readV_flag_draw, collisionFlag_eq_one_iff]
    refine (drawSprite_readBytes_collided _ _ s.mem _ _ s.fb hn).trans
      (exists_congr fun k => and_congr_right fun _ => ?_)
    constructor
    · exact fun hmeet => ⟨spriteTarget (s.readV y) k, rfl, hmeet⟩
    · rintro ⟨r, hr, hmeet⟩
      obtain rfl := spriteTarget_eq_iff.mpr hr.symm
      exact hmeet
  case flag =>
    rw [State.readV_flag_draw, collisionFlag_eq_one_iff, collisionFlag_eq_zero_iff]
    exact (em _).symm

/-- The pixel reading of a sprite row is the bit of the rotated byte in the row it goes to. -/
theorem spriteLights_iff {x y : Byte} {k : Nat} {b : Byte} {c : Fin 64} {r : Fin 32} :
    spriteLights x y k b c r ↔ spriteTarget y k = r ∧ (spriteRow b x).getLsbD (63 - c.val) = true := by
  rw [spriteLights, spriteTarget_eq_iff, getLsbD_spriteRow]

/-- Settles O50: a lit sprite pixel inverts by the XOR of its row; in a row without one there the XOR, if any,
is with a dark bit. -/
theorem drawFlipsExactlyTheSpritePixels : Obligations.DrawFlipsExactlyTheSpritePixels := by
  intro s x y n hrange
  have hn : n.toNat ≤ 32 := n.isLt.le.trans (by decide)
  have hrow {k : Nat} (hk : k < n.toNat) {r : Fin 32} (ht : spriteTarget (s.readV y) k = r) :
      (s.advance.draw x y (s.mem.readBytes s.i.toNat n.toNat)).fb[r] =
        s.fb[r] ^^^ spriteRow (s.readMem (s.i.toNat + k)) (s.readV x) :=
    row_drawSprite_of_target hn hk ht
  refine ⟨_, exec_drw_of_inRange hrange, fun c r => ⟨?lit, fun hdark => ?dark⟩⟩
  case lit =>
    rintro ⟨k, hk, hlights⟩
    obtain ⟨ht, hbit⟩ := spriteLights_iff.mp hlights
    rw [pixel, hrow hk ht, BitVec.getLsbD_xor, hbit, Bool.xor_true, pixel]
  case dark =>
    by_cases htarget : ∃ k < n.toNat, spriteTarget (s.readV y) k = r
    · obtain ⟨k, hk, ht⟩ := htarget
      have hbit : (spriteRow (s.readMem (s.i.toNat + k)) (s.readV x)).getLsbD (63 - c.val) = false :=
        Bool.eq_false_iff.mpr fun hbit => hdark ⟨k, hk, spriteLights_iff.mpr ⟨ht, hbit⟩⟩
      rw [pixel, hrow hk ht, BitVec.getLsbD_xor, hbit, Bool.xor_false, pixel]
    · push Not at htarget
      have hkept : (s.advance.draw x y (s.mem.readBytes s.i.toNat n.toNat)).fb[r] = s.fb[r] :=
        row_drawSprite_of_no_target htarget
      rw [pixel, hkept, pixel]

/-! ## Keys, ticks and the end of a run (rules R123, R133, R153) -/

theorem Unchanged.writeV_resume (s : State) (x : Nibble) (b : Byte) :
    Unchanged s (s.writeV x b).resume (onlyReg x) [.run] := by
  refine .of_fields (fun r hr => ?register) (.inr rfl) (.inr ⟨rfl, rfl⟩) (.inr rfl) (.inr rfl) (.inr rfl)
    (.inr rfl) (.inl (by decide)) (.inr rfl)
  case register => rw [State.resume_readV, State.readV_writeV_ne s (onlyReg_eq_false.mp hr)]

/-- A key that ends a wait. -/
theorem State.key_ends_wait {s : State} {x : Nibble} (h : s.run = .awaitKey x) (k : Nibble) :
    ((s.key k).readV x).toNat = k.toNat ∧ (s.key k).run = .running ∧ (s.key k).pc = s.pc ∧
      Unchanged s (s.key k) (onlyReg x) [.run] := by
  rw [State.key_of_awaitKey h]
  refine ⟨?register, rfl, rfl, .writeV_resume s x _⟩
  case register =>
    rw [State.resume_readV, State.readV_writeV_same, BitVec.toNat_setWidth]
    exact Nat.mod_eq_of_lt (k.isLt.trans (by decide))

/-- Settles O54: a key ends a wait, and in any other state is discarded. -/
theorem keyEventEndsOnlyAWait : Obligations.KeyEventEndsOnlyAWait :=
  fun _ k => ⟨fun _ h => State.key_ends_wait h k, fun h => State.key_of_not_awaiting h k⟩

theorem Unchanged.tick (s : State) : Unchanged s s.tick noReg [.dt, .st] := by
  obtain ⟨a, b, h⟩ := s.tick_eq_setTimers
  rw [h]
  exact .of_fields (fun _ _ => rfl) (.inr rfl) (.inr ⟨rfl, rfl⟩) (.inl (by decide)) (.inl (by decide))
    (.inr rfl) (.inr rfl) (.inr rfl) (.inr rfl)

theorem State.tick_keeps_pc_and_run (s : State) : s.tick.pc = s.pc ∧ s.tick.run = s.run := by
  obtain ⟨a, b, h⟩ := s.tick_eq_setTimers
  rw [h]
  exact ⟨rfl, rfl⟩

/-- n ticks as one function. -/
def State.ticks : Nat → State → State
  | 0, s => s
  | n + 1, s => State.ticks n s.tick

theorem actAll_replicate_tick (n : Nat) (s : State) :
    actAll (List.replicate n .tick) s = .next (s.ticks n) := by
  induction n generalizing s with
  | zero => rfl
  | succ n ih => exact ih s.tick

theorem State.ticks_keep_pc_and_run (n : Nat) (s : State) : (s.ticks n).pc = s.pc ∧ (s.ticks n).run = s.run := by
  induction n generalizing s with
  | zero => exact ⟨rfl, rfl⟩
  | succ n ih =>
    obtain ⟨hpc, hrun⟩ := s.tick_keeps_pc_and_run
    exact ⟨(ih s.tick).1.trans hpc, (ih s.tick).2.trans hrun⟩

theorem Unchanged.ticks (n : Nat) (s : State) : Unchanged s (s.ticks n) noReg [.dt, .st] := by
  induction n generalizing s with
  | zero => exact .refl s _ _
  | succ n ih => exact (Unchanged.tick s).trans (ih s.tick)

theorem State.isFaulted_of_run_eq {s t : State} (h : t.run = s.run) : t.isFaulted = s.isFaulted := by
  rw [State.isFaulted, State.isFaulted, h]

theorem State.toNat_ticks_timers (n : Nat) {s : State} (hs : s.isFaulted = false) :
    (s.ticks n).dt.toNat = s.dt.toNat - n ∧ (s.ticks n).st.toNat = s.st.toNat - n := by
  induction n generalizing s with
  | zero => exact ⟨rfl, rfl⟩
  | succ n ih =>
    obtain ⟨hdt, hst⟩ := ih ((State.isFaulted_of_run_eq s.tick_keeps_pc_and_run.2).trans hs)
    obtain ⟨hdt1, hst1⟩ := s.toNat_tick_timers
    simp only [hs, Bool.false_eq_true, if_false] at hdt1 hst1
    rw [State.ticks, hdt, hst]
    omega

theorem State.ticks_of_faulted (n : Nat) {s : State} (hs : s.isFaulted = true) : s.ticks n = s := by
  induction n with
  | zero => rfl
  | succ n ih => rw [State.ticks, State.tick_of_faulted hs, ih]

/-- Settles O56: by induction on the number of ticks. -/
theorem ticksCountDownToZero : Obligations.TicksCountDownToZero :=
  fun s n => ⟨_, actAll_replicate_tick n s, (s.ticks_keep_pc_and_run n).1, .ticks n s,
    State.toNat_ticks_timers n, State.ticks_of_faulted n⟩

/-- Settles O55: the wait, the ticks and the key one after the other, each with its frame. -/
theorem waitWithTicksResumesAfterTheKey : Obligations.WaitWithTicksResumesAfterTheKey := by
  intro s w x k n h
  obtain rfl := Host.Outcome.next.inj ((exec_ldVxK x s).symm.trans h)
  obtain ⟨hpc, hrun⟩ := (s.advance.awaitKey x).ticks_keep_pc_and_run n
  obtain ⟨hkey, hresumed, hkpc, hkframe⟩ := State.key_ends_wait (hrun.trans (s.advance.awaitKey_run x)) k
  obtain ⟨hkdt, hkst⟩ := ((s.advance.awaitKey x).ticks n).key_keeps_timers k
  obtain ⟨hdt, hst⟩ := State.toNat_ticks_timers n (s := s.advance.awaitKey x) rfl
  refine ⟨((s.advance.awaitKey x).ticks n).key k, ?run, hkey, hresumed, hkpc.trans hpc,
    (congrArg BitVec.toNat hkdt).trans hdt, (congrArg BitVec.toNat hkst).trans hst, ?frame⟩
  case run => rw [actAll_append, actAll_replicate_tick]; rfl
  case frame =>
    have hwait := (Unchanged.advance_awaitKey s x).mono (regs' := onlyReg x) (ps' := [.dt, .st, .run])
      (fun _ _ => rfl) (by simp)
    have hticks := (Unchanged.ticks n (s.advance.awaitKey x)).mono (regs' := onlyReg x) (ps' := [.dt, .st, .run])
      (fun _ _ => rfl) (by simp)
    exact (hwait.trans hticks).trans (hkframe.mono (fun _ hr => hr) (by simp))

/-- Nothing but the timers differs, and they are no higher. -/
structure LowersTimers (s t : State) : Prop where
  pc : t.pc = s.pc
  dt : t.dt.toNat ≤ s.dt.toNat
  st : t.st.toNat ≤ s.st.toNat
  frame : Unchanged s t noReg [.dt, .st]

theorem LowersTimers.refl (s : State) : LowersTimers s s := ⟨rfl, le_rfl, le_rfl, .refl s _ _⟩

theorem LowersTimers.trans {s t u : State} (h : LowersTimers s t) (h' : LowersTimers t u) : LowersTimers s u :=
  ⟨h'.pc.trans h.pc, h'.dt.trans h.dt, h'.st.trans h.st, h.frame.trans h'.frame⟩

theorem LowersTimers.tick (s : State) : LowersTimers s s.tick where
  pc := s.tick_keeps_pc_and_run.1
  dt := s.toNat_tick_timers.1 ▸ Nat.sub_le ..
  st := s.toNat_tick_timers.2 ▸ Nat.sub_le ..
  frame := .tick s

theorem LowersTimers.isFinal {s t : State} (h : LowersTimers s t) (hs : s.isFinal) : t.isFinal := by
  obtain ⟨hrun, hpc, hword⟩ := hs
  have hmem : ∀ a, t.readMem a = s.readMem a := h.frame.2 .mem (by decide)
  have hwordt : t.wordAtPc = s.wordAtPc := by rw [State.wordAtPc, State.wordAtPc, h.pc, hmem, hmem]
  exact ⟨(h.frame.2 .run (by decide)).trans hrun, h.pc ▸ hpc, by rw [hwordt, h.pc, hword]⟩

/-- A step from a final state jumps to where it is. -/
theorem State.isFinal.step_eq {s : State} (h : s.isFinal) : step s = .next s := by
  obtain ⟨hrun, hpc, hword⟩ := h
  have hself : target (s.pc.setWidth 12) = s.pc := by
    refine BitVec.eq_of_toNat_eq ?_
    rw [toNat_target, BitVec.toNat_setWidth, Nat.mod_eq_of_lt (by omega)]
  have hd : decode s.wordAtPc = .ok (.jp (s.pc.setWidth 12)) := hword ▸ decode_encode _
  rw [step_of_decoded hrun (by omega) hd, exec_jp, hself]
  rfl

theorem State.isFinal.core_run_eq {s : State} (h : s.isFinal) (n : Nat) : core.run n s = .next s := by
  induction n with
  | zero => rfl
  | succ n ih => rw [core_run_succ h.step_eq, ih]

/-- From a final state no transition does more than lower the timers. -/
theorem State.isFinal.act_lowersTimers {s : State} (h : s.isFinal) (a : Action) :
    ∃ t, act a s = .next t ∧ LowersTimers s t := by
  cases a with
  | step => exact ⟨s, h.step_eq, .refl s⟩
  | tick => exact ⟨s.tick, rfl, .tick s⟩
  | key k => exact ⟨s, congrArg _ (State.key_of_not_awaiting (by simp [State.awaiting, h.1]) k), .refl s⟩

theorem State.isFinal.actAll_lowersTimers {s : State} (h : s.isFinal) (as : List Action) :
    ∃ t, actAll as s = .next t ∧ LowersTimers s t := by
  induction as generalizing s with
  | nil => exact ⟨s, rfl, .refl s⟩
  | cons a as ih =>
    obtain ⟨u, hu, hsu⟩ := h.act_lowersTimers a
    obtain ⟨t, ht, hut⟩ := ih (hsu.isFinal h)
    exact ⟨t, by rw [actAll, hu]; exact ht, hsu.trans hut⟩

/-- Settles O57: a step stays put, and along any list only the timers move. -/
theorem finalStateStaysPut : Obligations.FinalStateStaysPut := by
  intro s h
  refine ⟨h.core_run_eq, fun as => ?_⟩
  obtain ⟨t, ht, hst⟩ := h.actAll_lowersTimers as
  exact ⟨t, ht, hst.isFinal h, hst.pc, hst.dt, hst.st, hst.frame⟩

/-! ## The placed word (rule R41, log entry 5) -/

/-- The machine made ready can fetch. -/
theorem State.readyToFetch_pc_inRange (s : State) : s.readyToFetch.pc.toNat + 2 ≤ 4096 := by
  simp only [State.readyToFetch]
  split
  · exact (inRange_iff _ _).mp ‹_›
  · decide

theorem State.readyToFetch_pc_of_inRange {s : State} (h : s.pc.toNat + 2 ≤ 4096) :
    s.readyToFetch.pc = s.pc :=
  if_pos ((inRange_iff _ _).mpr h)

/-- The bits of a word below bit 16 are the word. -/
theorem ofNat_toNat_mod (w : Word) : BitVec.ofNat 16 (w.toNat % 2 ^ 16) = w := by
  rw [Nat.mod_eq_of_lt w.isLt, BitVec.ofNat_toNat, BitVec.setWidth_eq]

/-- A word of 16 bits is placed whole, high byte first. -/
theorem State.withFetchWord_toNat (s : State) (w : Word) :
    s.withFetchWord 16 w.toNat = s.readyToFetch.storeBytes s.readyToFetch.pc.toNat [highByte w, lowByte w] := by
  rw [State.withFetchWord, ofNat_toNat_mod]

theorem State.wordAtPc_storeBytes (s : State) (w : Word) :
    (s.storeBytes s.pc.toNat [highByte w, lowByte w]).wordAtPc = w := by
  have hhigh := s.readMem_storeBytes_inside s.pc.toNat [highByte w, lowByte w] 0 Nat.two_pos
  have hlow := s.readMem_storeBytes_inside s.pc.toNat [highByte w, lowByte w] 1 Nat.one_lt_two
  rw [State.wordAtPc, State.storeBytes_pc, hlow]
  exact (congrArg (wordOfBytes · (lowByte w)) hhigh).trans (wordOfBytes_high_low w)

/-- An instruction's word stored at the pc of a machine that can fetch is what the next step runs. -/
theorem step_storeBytes_encode {s : State} (hrun : s.run = .running) (hpc : s.pc.toNat + 2 ≤ 4096) (i : Instr) :
    step (s.storeBytes s.pc.toNat [highByte (encode i), lowByte (encode i)]) =
      exec i (s.storeBytes s.pc.toNat [highByte (encode i), lowByte (encode i)]) :=
  step_of_decoded (s := s.storeBytes _ _) hrun hpc (by rw [State.wordAtPc_storeBytes, decode_encode])

theorem decodeTableWord_encode (i : Instr) : decodeTableWord 16 (encode i).toNat = some i := by
  rw [decodeTableWord, ofNat_toNat_mod, decodeBytes_high_low, decode_encode]

theorem Unchanged.readyToFetch_storeBytes (s : State) (a : Nat) (bs : List Byte) :
    Unchanged s (s.readyToFetch.storeBytes a bs) noReg [.mem, .run] :=
  .of_fields (fun _ _ => rfl) (.inr rfl) (.inr ⟨rfl, rfl⟩) (.inr rfl) (.inr rfl) (.inl (by decide))
    (.inr rfl) (.inl (by decide)) (.inr rfl)

/-- Settles O12: the placed word stands at the pc of a machine made ready to fetch it. -/
theorem placedWordIsTheOneFetched : Obligations.PlacedWordIsTheOneFetched := by
  intro s i
  rw [State.withFetchWord_toNat]
  refine ⟨decodeTableWord_encode i, step_storeBytes_encode rfl s.readyToFetch_pc_inRange i,
    s.readyToFetch.wordAtPc_storeBytes (encode i), .readyToFetch_storeBytes s _ _, rfl,
    fun hpc => ⟨State.readyToFetch_pc_of_inRange hpc, fun a h0 h1 => ?outside⟩⟩
  case outside =>
    have hout : a < s.readyToFetch.pc.toNat ∨ s.readyToFetch.pc.toNat + 2 ≤ a := by
      rw [State.readyToFetch_pc_of_inRange hpc]; omega
    exact State.readMem_storeBytes_outside s.readyToFetch _ _ a hout

end Sys2Proof.Machine
